-- ==== Sys2Proof/Word.lean ====
section
/-! DEFINITION. The word and byte types (spec 00_scope.md R8): unsigned, bit 0 least significant. -/

namespace Sys2Proof

/-- An unsigned 32-bit word; `+` on it is `add32`, addition modulo 2^32 (R9). -/
abbrev Word := BitVec 32

/-- An unsigned byte (R8). -/
abbrev Byte := BitVec 8

end Sys2Proof
end

