-- ==== Sys2Proof/Machine/Logic.lean ====
section
/-! DEFINITION. The combinational functions: rotation and shift (00_scope.md R11, R12), byte order (R13), the schedule
functions (41_schedule.md R96, R97) and the round logic (42_rounds.md R104 to R109, R116). -/

namespace Sys2Proof.Machine

/-- `rotr(x, n)` for `1 <= n <= 31` (R11). -/
def rotr (x : Word) (n : Nat) : Word := (x >>> n) ||| (x <<< (32 - n))

/-- `x >> n`, logical, for `1 <= n <= 31` (R12). -/
def shr (x : Word) (n : Nat) : Word := x >>> n

/-- `be32`: a word from four bytes, most significant first (R13). -/
def be32 (b0 b1 b2 b3 : Byte) : Word := b0 ++ b1 ++ b2 ++ b3

/-- `byte_k(x) = x[31-8k : 24-8k]` for `k` in 0 to 3 (R13). -/
def byteOf (k : Nat) (x : Word) : Byte := x.extractLsb' (24 - 8 * k) 8

/-- `lenbyte_k(n) = n[63-8k : 56-8k]` for `k` in 0 to 7 (R13). -/
def lenByte (k : Nat) (n : BitVec 64) : Byte := n.extractLsb' (56 - 8 * k) 8

/-- The four bytes of a word, most significant first (R13, R68). -/
def wordBytes (x : Word) : List Byte := [byteOf 0 x, byteOf 1 x, byteOf 2 x, byteOf 3 x]

/-- The eight bytes of the length field, most significant first (R67). -/
def lengthBytes (n : BitVec 64) : List Byte :=
  [lenByte 0 n, lenByte 1 n, lenByte 2 n, lenByte 3 n, lenByte 4 n, lenByte 5 n, lenByte 6 n, lenByte 7 n]

/-- The 32 digest bytes of a hash state, in index order (R68, R126). -/
def digestBytes (h : Vector Word 8) : List Byte := h.toList.flatMap wordBytes

/-- `sigma0` (R96). -/
def sigma0 (x : Word) : Word := rotr x 7 ^^^ rotr x 18 ^^^ shr x 3

/-- `sigma1` (R97). -/
def sigma1 (x : Word) : Word := rotr x 17 ^^^ rotr x 19 ^^^ shr x 10

/-- `S1` (R104). -/
def bigS1 (x : Word) : Word := rotr x 6 ^^^ rotr x 11 ^^^ rotr x 25

/-- `S0` (R106). -/
def bigS0 (x : Word) : Word := rotr x 2 ^^^ rotr x 13 ^^^ rotr x 22

/-- The choice function (R105). -/
def ch (e f g : Word) : Word := (e &&& f) ^^^ (~~~e &&& g)

/-- The majority function (R107). -/
def maj (a b c : Word) : Word := (a &&& b) ^^^ (a &&& c) ^^^ (b &&& c)

/-- `t1` of a round with constant `k` and schedule word `w` (R108). -/
def roundT1 (k w : Word) (v : Vector Word 8) : Word := v[7] + bigS1 v[4] + ch v[4] v[5] v[6] + k + w

/-- `t2` of a round (R109). -/
def roundT2 (v : Vector Word 8) : Word := bigS0 v[0] + maj v[0] v[1] v[2]

/-- One round on the eight working registers, all writes together (R112, R116). -/
def roundStep (k w : Word) (v : Vector Word 8) : Vector Word 8 :=
  #v[roundT1 k w v + roundT2 v, v[0], v[1], v[2], v[3] + roundT1 k w v, v[4], v[5], v[6]]

/-- The schedule recurrence (R99), from `W[j-16]`, `W[j-15]`, `W[j-7]`, `W[j-2]`. -/
def scheduleWord (w16 w15 w7 w2 : Word) : Word := w16 + sigma0 w15 + w7 + sigma1 w2

/-- Word by word addition modulo 2^32 (R113). -/
def addWords (x y : Vector Word 8) : Vector Word 8 := Vector.ofFn fun k : Fin 8 => x[k] + y[k]

end Sys2Proof.Machine
end

