-- ==== Sys2Proof/Machine/Phase.lean ====
section
/-! DEFINITION. The sequencer's phases and its position (10_state.md R26, R27), and the fault causes (R32). -/

namespace Sys2Proof.Machine

/-- `PHASE` (R27): the operation due next, or one of the three resting states.
Codes 14 and 15 are never written, so the type leaves them out, as R27 allows. -/
inductive Phase where
  | idle | pCopy | pMark | pZero | pLen | hInit | bLoad | sExp | rCopy | rStep | bAdd | serial | done | fault
deriving DecidableEq, Repr, Inhabited

/-- The sequencer position `(PHASE, BLK, J)` (R26), which stands where a processor has a program counter. -/
structure Position where
  phase : Phase
  blk   : BitVec 56
  j     : BitVec 6
deriving DecidableEq, Repr, Inhabited

/-- `CAUSE` (R32): no fault recorded, the bit length does not fit 64 bits, the message does not fit `MSG`.
Codes 3 to 15 are never written, so the type leaves them out. -/
inductive Cause where
  | none | lenOverflow | lenCapacity
deriving DecidableEq, Repr, Inhabited

end Sys2Proof.Machine
end

