-- ==== Sys2Proof/Config.lean ====
section
/-! DEFINITION. What an implementation fixes (the capacity of the message memory) and the free values: contents the
spec leaves unspecified, as constants without a body, so that nothing can be proved of their values. DESIGN CHOICE (log 26):
they are constants of the whole theory, so two instances, or two runs, with the same count of resets share the draw, which
neither R63 nor D24 says. -/

namespace Sys2Proof

/-- The open parameter of R7: `LMAX`, the capacity of `MSG` in bytes, `0 <= LMAX <= 2^61 - 1`. -/
structure Config where
  lmax : Fin (2 ^ 61)
deriving DecidableEq, Repr

/-- The byte-addressed spaces of R46 that can hold a byte nobody has written. -/
inductive Space where
  | msg | pad | dg
deriving DecidableEq, Repr

/-- The registers that the RESET input leaves unspecified (R42, R158). -/
structure Unspecified where
  blk  : BitVec 56
  j    : BitVec 6
  plen : BitVec 62
  nblk : BitVec 56
  len  : BitVec 64
  h    : Vector Word 8
  v    : Vector Word 8
  w    : Vector Word 64
deriving Inhabited

/-- FREE VALUE (R42, R163; log 3): what a byte never written since the last reset reads as. It depends on how many
resets came before, on the space and on the address, so that reads stay idempotent (R54); that it does not depend on old contents (log 4), nor on
the instance (log 26), is the model's choice. -/
opaque Config.unwritten : (epoch : Nat) → Space → (address : Nat) → Byte

/-- FREE VALUE (R42, R158; log 4): what the registers hold after the RESET input. That it depends on the count of resets
only, and not on what they held before (log 4) nor on the instance (log 26), is the model's choice. -/
opaque Config.afterReset : (epoch : Nat) → Unspecified

/-- FREE VALUE (log 7): the next position after BLK.ADD with `BLK` past `NBLK - 1`, for which R122 has no row. -/
opaque Config.strayPosition : Machine.Position → (nblk : BitVec 56) → Machine.Position

end Sys2Proof
end

