-- ==== Sys2Proof/Syntax.lean ====
section
/-! DEFINITION. The instructions: the eleven sequencer operations and the host command START, one constructor per row
of spec/opcode_table.json, and the two formats a code word comes in (30_encoding.md R69, R74). -/

namespace Sys2Proof

/-- The operations of R70 and the command of R74. `j` is the index field of the two indexed operations. -/
inductive Instr where
  | padCopy
  | padMark
  | padZero
  | padLen
  | hInit
  | blkLoad
  | schExp (j : BitVec 6)
  | rndCopy
  | rndStep (j : BitVec 6)
  | blkAdd
  | ser
  | start
deriving DecidableEq, Repr

/-- A code word: format `Q`, the 10-bit operation word (R69), or format `HC`, the 32-bit value written to `CTRL` (R74). -/
inductive Code where
  | q  (opw : BitVec 10)
  | hc (value : BitVec 32)
deriving DecidableEq, Repr

/-- Why a code word is no instruction. -/
inductive Reject where
  /-- `opc` 0 or 12 to 15 (R72). -/
  | unassignedOpcode
  /-- SCH.EXP with `idx` 0 to 15 (R72). -/
  | scheduleIndexBelow16
  /-- An operation that takes no index, with `idx` other than 0 (R72). -/
  | indexNotZero
  /-- `CTRL` value 0: nothing is commanded (R74). -/
  | noCommand
  /-- A `CTRL` value with any of bits 31 to 1 set (R74). -/
  | reservedControlValue
deriving DecidableEq, Repr

end Sys2Proof
end

