-- ==== Sys2Proof/WellFormed.lean ====
section
/-! DEFINITION. Which instructions are well formed: the operands the encoding admits (R70, R72). -/

namespace Sys2Proof

/-- SCH.EXP takes `16 <= j <= 63`; every other operand range is the field's own (R70). -/
def Instr.wellFormed : Instr → Bool
  | .padCopy   => true
  | .padMark   => true
  | .padZero   => true
  | .padLen    => true
  | .hInit     => true
  | .blkLoad   => true
  | .schExp j  => decide (16 ≤ j.toNat)
  | .rndCopy   => true
  | .rndStep _ => true
  | .blkAdd    => true
  | .ser       => true
  | .start     => true

end Sys2Proof
end

