-- ==== Sys2Proof/Decode.lean ====
section
/-! DEFINITION. The decoder of R71 and R74, total on both formats and rejecting by name, and the encoder of R70. -/

namespace Sys2Proof

/-- `opc = OPW[9:6]` (R69). -/
def opcField (w : BitVec 10) : BitVec 4 := w.extractLsb' 6 4

/-- `idx = OPW[5:0]` (R69). -/
def idxField (w : BitVec 10) : BitVec 6 := w.extractLsb' 0 6

/-- An operation that takes no index is legal only with `idx = 0` (R71). -/
def unindexed (w : BitVec 10) (i : Instr) : Except Reject Instr :=
  if idxField w = 0 then .ok i else .error .indexNotZero

/-- The decoder of R71 on the 1024 operation words. -/
def decodeOpw (w : BitVec 10) : Except Reject Instr :=
  match (opcField w).toNat with
  | 1  => unindexed w .padCopy
  | 2  => unindexed w .padMark
  | 3  => unindexed w .padZero
  | 4  => unindexed w .padLen
  | 5  => unindexed w .hInit
  | 6  => unindexed w .blkLoad
  | 7  => if 16 ≤ (idxField w).toNat then .ok (.schExp (idxField w)) else .error .scheduleIndexBelow16
  | 8  => unindexed w .rndCopy
  | 9  => .ok (.rndStep (idxField w))
  | 10 => unindexed w .blkAdd
  | 11 => unindexed w .ser
  | _  => .error .unassignedOpcode

/-- The values written to `CTRL` (R74): 1 is START, 0 commands nothing, every other value is reserved. -/
def decodeCtrl (v : BitVec 32) : Except Reject Instr :=
  if v = 1 then .ok .start else if v = 0 then .error .noCommand else .error .reservedControlValue

/-- The decoder on a word of either format. -/
def decode : Code → Except Reject Instr
  | .q w  => decodeOpw w
  | .hc v => decodeCtrl v

/-- The code word of an instruction: the OPW column of R70, and the START value of R74. -/
def encode : Instr → Code
  | .padCopy   => .q 0x040
  | .padMark   => .q 0x080
  | .padZero   => .q 0x0C0
  | .padLen    => .q 0x100
  | .hInit     => .q 0x140
  | .blkLoad   => .q 0x180
  | .schExp j  => .q (0x1C0 + j.setWidth 10)
  | .rndCopy   => .q 0x200
  | .rndStep j => .q (0x240 + j.setWidth 10)
  | .blkAdd    => .q 0x280
  | .ser       => .q 0x2C0
  | .start     => .hc 0x00000001

/-- The host's question about a table row: rows of 10 bits arrive as 16-bit numbers whose six high bits are no part
of an operation word and must be zero; wider rows are values written to `CTRL`. -/
def decodeTableWord (nbits w : Nat) : Option Instr :=
  if nbits ≤ 16 then
    if w < 2 ^ 10 then (decodeOpw (BitVec.ofNat 10 w)).toOption else none
  else
    if w < 2 ^ 32 then (decodeCtrl (BitVec.ofNat 32 w)).toOption else none

end Sys2Proof
end

