-- ==== Sys2Proof/Machine/State.lean ====
section
/-! DEFINITION. The state of one engine instance (10_state.md R20), the actions of the host on it, the reasons a step
can stop, and the state after reset (R42). -/

namespace Sys2Proof.Machine

/-- A byte-addressed space: the bytes written since the last reset, addresses strictly rising. An address that is not
listed holds no written value (R42). -/
abbrev Memory := List Host.Cell

/-- The canonical form of a memory: addresses strictly rising. An unlisted address holds no value, so no entry can
equal what an unlisted address holds. -/
abbrev Memory.wf (m : Memory) : Prop := m.Pairwise fun c d => c.1 < d.1

/-- What the host can do to the three host registers and the two host-visible memories (R40, R74, R128 to R130). -/
inductive HostAction where
  | writeCtrl (v : BitVec 32)
  | writeStatus (v : BitVec 32)
  | writeLen (n : BitVec 64)
  | writeMsg (t : Nat) (v : Byte)
  | readCtrl
  | readStatus
  | readLen
  | readMsg (t : Nat)
  | readDg (t : Nat)
deriving DecidableEq, Repr

/-- What happens in a turn: the sequencer's step, an action of the host, or an operation word performed by hand (R73),
which the hardware cannot do and a test of the model can. -/
inductive Event where
  | sequencer
  | host (a : HostAction)
  | feed (opw : BitVec 10)
deriving DecidableEq, Repr

/-- One turn (R118, R119): the level of the RESET input, and what else would happen in that turn. -/
structure Turn where
  reset : Bool
  event : Event
deriving DecidableEq, Repr

/-- The value a host read returned. -/
inductive Reply where
  | status (v : BitVec 32)
  | len (n : BitVec 64)
  | msg (v : Byte)
  | dg (v : Byte)
deriving DecidableEq, Repr

/-- MODEL (R42, R73, R165; log 9): which registers anything has written since the last reset. Of `MSG`, `PAD` and `DG`
the memories themselves say it. -/
structure Written where
  blk  : Bool
  j    : Bool
  plen : Bool
  nblk : Bool
  len  : Bool
  h    : Bool
  v    : Bool
  w    : Vector Bool 64
deriving DecidableEq, Repr

/-- After reset no register is written (R42). -/
def Written.nothing : Written :=
  { blk := false, j := false, plen := false, nblk := false, len := false, h := false, v := false,
    w := Vector.replicate 64 false }

/-- The state. Fields `phase` to `dg` are R20's table; `cfg` is the parameter of R7; the last four are the model's
own. `K` and `IV` are constants (R38); `CTRL` and `STATUS` have no storage (R30, R31). -/
structure State where
  /-- `PHASE` (R26, R27). -/
  phase : Phase
  /-- `BLK`, the index of the block being processed (R26). -/
  blk   : BitVec 56
  /-- `J`, the schedule or round index (R26). -/
  j     : BitVec 6
  /-- `PLEN`, bytes of the padded buffer written so far (R28). -/
  plen  : BitVec 62
  /-- `NBLK`, the number of blocks (R28). -/
  nblk  : BitVec 56
  /-- `LEN`, the message length in bytes (R29). -/
  len   : BitVec 64
  /-- `CAUSE` (R32). -/
  cause : Cause
  /-- `H[0..7]`, the hash state (R21). -/
  h     : Vector Word 8
  /-- `V[0..7]`, the working registers `a` to `h` (R22). -/
  v     : Vector Word 8
  /-- `W[0..63]`, the message schedule (R23). -/
  w     : Vector Word 64
  /-- `MSG`, the message memory (R33). -/
  msg   : Memory
  /-- `PAD`, the padded buffer (R34). -/
  pad   : Memory
  /-- `DG`, the digest memory (R35). -/
  dg    : Memory
  /-- The implementation's parameter; no step changes it (R7, R38). -/
  cfg   : Config
  /-- MODEL: how many times the RESET input was asserted; it selects the free values (log 3, log 4). -/
  epoch : Nat
  /-- MODEL: the turns of the outside world still to come, next first (log 5). -/
  turns : List Turn
  /-- MODEL: what the host's last read returned (log 6). -/
  reply : Option Reply
  /-- MODEL: which registers have been written since the last reset (log 9). -/
  written : Written
deriving DecidableEq, Repr

/-- Model-level faults: an access to an address the spec says does not exist, and a read of a location nobody has written,
by an operation performed by hand, out of order. On the sequencer's own path none occurs (R142, R165). Safe: the hardware
performs no operation out of order. -/
inductive Fault where
  /-- PAD.COPY, run by hand with `LEN > LMAX`: `MSG` has `LMAX` bytes (R33). Safe. -/
  | noMsgAddress
  /-- PAD.MARK, PAD.ZERO, PAD.LEN or BLK.LOAD, run by hand beyond the `PMAX` bytes of `PAD` (R34). Safe. -/
  | noPadAddress
  /-- An operation performed out of order, by hand (`performOutOfOrder`), that reads a location no earlier operation and no
  host write has written since the last reset. The spec's own stop (R73): a model that offers the operations singly "treats a
  read of a register that no earlier operation wrote as a fault, not as zero"; D22, U7 and U15 say the same. Safe. -/
  | unwrittenRead
deriving DecidableEq, Repr

/-- Refusals: what the spec tells a model to give no meaning (R157, 93_implementation_defined.md). All are safe. -/
inductive Refusal where
  /-- An instruction whose meaning is not written. Raised by exec's refused arms only. -/
  | notModelled (mnemonic : String)
  /-- An operation word that is no operation, or SCH.EXP with an index below 16 (R72, U14). Raised by the sequencer's
  turn, by a word fed by hand and by SCH.EXP. -/
  | illegalOperation (why : Reject)
  /-- A host write of a reserved value to `CTRL` (R74, U11). -/
  | reservedControlValue (v : BitVec 32)
  /-- A host read of the write-only register `CTRL` (R30, U10). -/
  | readOfControl
  /-- A host read of `LEN` or `MSG` while BUSY (R29, R33, R40, R128). -/
  | readWhileBusy
  /-- A host read of `DG` when `PHASE` is not DONE (R129, U9). -/
  | digestNotReady
  /-- A host access to `MSG[t]` with `t >= LMAX`, or to `DG[t]` with `t >= 32` (R130, U16). -/
  | noSuchAddress
deriving DecidableEq, Repr

/-- The three outcomes of a step of this machine. -/
abbrev Result := Host.Outcome State Fault Refusal

/-- The machine right after reset (R42): IDLE, no fault recorded, no byte written. The spec gives the other registers
no value; the model names zero for each (log 1), and `2^61 - 1` for `LMAX` (log 2). -/
def State.reset : State where
  phase := .idle
  blk   := 0
  j     := 0
  plen  := 0
  nblk  := 0
  len   := 0
  cause := .none
  h     := Vector.replicate 8 0
  v     := Vector.replicate 8 0
  w     := Vector.replicate 64 0
  msg   := []
  pad   := []
  dg    := []
  cfg   := { lmax := ⟨2 ^ 61 - 1, by decide⟩ }
  epoch := 0
  turns := []
  reply := none
  written := Written.nothing

end Sys2Proof.Machine
end

