-- ==== Sys2Proof/Machine/Flags.lean ====
section
/-! DEFINITION. The status bits: views of `PHASE` and `CAUSE` (10_state.md R27, R31, R32). There are no arithmetic
flags (R36). -/

namespace Sys2Proof.Machine

/-- The code of a phase (R27). -/
def Phase.code : Phase → BitVec 4
  | .idle   => 0
  | .pCopy  => 1
  | .pMark  => 2
  | .pZero  => 3
  | .pLen   => 4
  | .hInit  => 5
  | .bLoad  => 6
  | .sExp   => 7
  | .rCopy  => 8
  | .rStep  => 9
  | .bAdd   => 10
  | .serial => 11
  | .done   => 12
  | .fault  => 13

/-- BUSY (R31): an operation is due, `1 <= PHASE <= 11`. -/
def Phase.busy (p : Phase) : Bool := decide (1 ≤ p.code.toNat ∧ p.code.toNat ≤ 11)

/-- The code of a fault cause (R32). -/
def Cause.code : Cause → BitVec 4
  | .none        => 0
  | .lenOverflow => 1
  | .lenCapacity => 2

/-- `STATUS` as a view of a phase and a cause (R31): bits 31:8 zero, 7:4 CAUSE, 3 zero, 2 FAULT, 1 DONE, 0 BUSY. -/
def statusWord (p : Phase) (c : Cause) : BitVec 32 :=
  0#24 ++ c.code ++ 0#1 ++ BitVec.ofBool (decide (p = .fault)) ++ BitVec.ofBool (decide (p = .done)) ++ BitVec.ofBool p.busy

/-- The value `STATUS` reads as (R31). -/
def State.status (s : State) : BitVec 32 := statusWord s.phase s.cause

end Sys2Proof.Machine
end

