-- ==== Sys2Proof/Machine/Operands.lean ====
section
/-! DEFINITION. Operand forms: the operation word of a position (30_encoding.md R69), the position that has a given
operation word, the schedule words an index names, and the sizes an operation computes from its registers. -/

namespace Sys2Proof.Machine

/-- The state's sequencer position (R26). -/
def State.position (s : State) : Position := ⟨s.phase, s.blk, s.j⟩

/-- The state at another sequencer position. -/
def State.atPosition (s : State) (p : Position) : State := { s with phase := p.phase, blk := p.blk, j := p.j }

/-- Only SCH.EXP and RND.STEP take `J` as their index (R69). -/
def Position.index (p : Position) : BitVec 6 :=
  if p.phase = .sExp ∨ p.phase = .rStep then p.j else 0

/-- The operation word of a position (R69): none in a resting state, where the sequencer has no step (R119). -/
def Position.opWord (p : Position) : Option (BitVec 10) :=
  if p.phase.busy then some (p.phase.code ++ p.index) else none

/-- The phase whose code is `opc`; the codes that no phase has give IDLE, in which no operation is due. -/
def Phase.ofCode (opc : BitVec 4) : Phase :=
  match opc.toNat with
  | 1  => .pCopy
  | 2  => .pMark
  | 3  => .pZero
  | 4  => .pLen
  | 5  => .hInit
  | 6  => .bLoad
  | 7  => .sExp
  | 8  => .rCopy
  | 9  => .rStep
  | 10 => .bAdd
  | 11 => .serial
  | 12 => .done
  | 13 => .fault
  | _  => .idle

/-- The position with the legal operation word `w`: its phase, and its index if it takes one; the rest as it stands. -/
def Position.forWord (p : Position) (w : BitVec 10) : Position :=
  let phase := Phase.ofCode (opcField w)
  { p with phase := phase, j := if phase = .sExp ∨ phase = .rStep then idxField w else p.j }

/-- `W[j]` (R23). -/
def State.scheduled (s : State) (j : BitVec 6) : Word := s.w[j.toNat]'j.isLt

/-- The size of `MSG` in bytes, `LMAX` (R33). -/
def State.msgSize (s : State) : Nat := s.cfg.lmax

/-- The size of `PAD` in bytes, `PMAX` (R7, R34). -/
def State.padSize (s : State) : Nat := 64 * ((s.cfg.lmax + 8) / 64 + 1)

/-- The size of `DG` in bytes (R35). -/
def digestSize : Nat := 32

/-- The count of zero bytes that brings a padded length of `n` bytes to 56 modulo 64 (R90), `mod` as in R16. -/
def zeroCount (n : Nat) : Nat := ((56 - (n : Int)) % 64).toNat

/-- The bit length `8 * LEN` in 64 bits (R67, R91). -/
def bitLength (len : BitVec 64) : BitVec 64 := 8 * len

end Sys2Proof.Machine
end

