-- ==== Sys2Proof/Machine/Ops.lean ====
section
/-! DEFINITION. The shared operations: reading and writing a memory (20_memory.md R46), the accesses of the engine to
`MSG`, `PAD` and `DG`, the fault entry (60_exceptions.md R143), the only way out of it, RESET (70 R158), the
sequencer's next position (43_sequencer.md R122), and the record of what has been written (30_encoding.md R73). -/

namespace Sys2Proof.Machine

/-- The byte written at address `a`, if one was. -/
def Memory.read? : Memory → Nat → Option Byte
  | [], _ => none
  | c :: m, a => if c.1 = a then some c.2 else Memory.read? m a

/-- The cells of a run of bytes that starts at `base`. -/
def Memory.run : (base : Nat) → List Byte → Memory
  | _, [] => []
  | base, b :: bs => (base, b) :: Memory.run (base + 1) bs

/-- `MemWrite` (R14): a run of bytes stored at `base` and up; every other address keeps its byte. -/
def Memory.store (m : Memory) (base : Nat) (bytes : List Byte) : Memory :=
  m.filter (fun c => decide (c.1 < base)) ++ Memory.run base bytes
    ++ m.filter (fun c => decide (base + bytes.length ≤ c.1))

/-- The byte at address `a` of a space: the one written there, or a free value if none was since reset (log 3). -/
def Memory.byteAt (m : Memory) (epoch : Nat) (space : Space) (a : Nat) : Byte :=
  (m.read? a).getD (Config.unwritten epoch space a)

/-- `MSG[a]` (R33). -/
def State.msgByte (s : State) (a : Nat) : Byte := s.msg.byteAt s.epoch .msg a

/-- `PAD[a]` (R34). -/
def State.padByte (s : State) (a : Nat) : Byte := s.pad.byteAt s.epoch .pad a

/-- `DG[a]` (R35). -/
def State.dgByte (s : State) (a : Nat) : Byte := s.dg.byteAt s.epoch .dg a

/-- `MemRead(MSG, 0, n)` (R14, R88). -/
def State.message (s : State) (n : Nat) : List Byte := (List.range n).map s.msgByte

/-- Word `t` of the block at `base` in `PAD` (R66, R98). -/
def State.padWord (s : State) (base t : Nat) : Word :=
  be32 (s.padByte (base + 4 * t)) (s.padByte (base + 4 * t + 1)) (s.padByte (base + 4 * t + 2))
    (s.padByte (base + 4 * t + 3))

/-- An access to `n` bytes at `base` stays inside a space of `size` bytes; an access to no byte always does. -/
def inside (base n size : Nat) : Bool := decide (n = 0 ∨ base + n ≤ size)

/-- The padder's append (R89 to R91): a run of bytes stored at `PLEN`, `PLEN` moved past it. An address beyond `PAD`
does not exist; on the sequencer's own path none is reached (R142). -/
def State.appendPad (s : State) (bytes : List Byte) : Result :=
  if inside s.plen.toNat bytes.length s.padSize then
    .next { s with pad := s.pad.store s.plen.toNat bytes, plen := s.plen + BitVec.ofNat 62 bytes.length }
  else .fault .noPadAddress

/-- `raise LengthFault(c)` (R143): the cause is recorded and the sequencer rests in FAULT; nothing else is written. -/
def State.raiseLengthFault (s : State) (c : Cause) : State := { s with cause := c, phase := .fault }

/-- The RESET input (R158), the one way out of FAULT (R145): IDLE with no fault recorded, no byte and no register
written, and every other register of the engine unspecified. DESIGN CHOICE (log 4): the unspecified contents depend on the
count of resets, not on what the engine held before; R160 promises no such secrecy. The parameter and the turns still to come
are not the engine's. -/
def State.resetInput (s : State) : State :=
  let u := Config.afterReset (s.epoch + 1)
  { phase := .idle, cause := .none, blk := u.blk, j := u.j, plen := u.plen, nblk := u.nblk, len := u.len, h := u.h, v := u.v,
    w := u.w, msg := [], pad := [], dg := [], cfg := s.cfg, epoch := s.epoch + 1, turns := s.turns, reply := s.reply,
    written := Written.nothing }

/-- The record after operation `i`: the registers of its rule's 'Writes' list are written (R88 to R91, R98, R99, R110 to
R113, R126); START writes none (R120). -/
def Written.byOperation (m : Written) (i : Instr) : Written :=
  match i with
  | .padCopy | .padMark | .padZero => { m with plen := true }
  | .padLen     => { m with plen := true, nblk := true }
  | .hInit      => { m with h := true }
  | .blkLoad    => { m with w := Vector.ofFn fun k : Fin 64 => decide (k.val < 16) || m.w[k] }
  | .schExp j   => { m with w := m.w.set j.toNat true j.isLt }
  | .rndCopy    => { m with v := true }
  | .rndStep _  => { m with v := true }
  | .blkAdd     => { m with h := true }
  | .ser | .start => m

/-- The record after the sequencer moves from position `p` to `q`: H.INIT's row writes `BLK`, the rows of BLK.LOAD and
RND.COPY write `J` (R122), and so does every row that changes them. -/
def Written.byPositionWrite (m : Written) (p q : Position) : Written :=
  { m with blk := m.blk || decide (p.phase = .hInit ∨ q.blk ≠ p.blk)
           j := m.j || decide (p.phase = .bLoad ∨ p.phase = .rCopy ∨ q.j ≠ p.j) }

/-- The state in which the writes of operation `i` are recorded. -/
def State.recordOperation (s : State) (i : Instr) : State := { s with written := s.written.byOperation i }

/-- Every location of the engine that operation `i` reads has been written since the last reset ('Reads' of R88 to R91,
R98, R99, R110 to R113, R126; location by location as in R165). -/
def State.engineReadsWritten (s : State) (i : Instr) : Bool :=
  match i with
  | .padMark | .padZero | .padLen => s.written.plen
  | .blkLoad   => s.written.blk && (List.range 64).all fun k => (s.pad.read? (64 * s.blk.toNat + k)).isSome
  | .schExp j  => s.written.w[(j - 16).toNat]'(j - 16).isLt && s.written.w[(j - 15).toNat]'(j - 15).isLt
      && s.written.w[(j - 7).toNat]'(j - 7).isLt && s.written.w[(j - 2).toNat]'(j - 2).isLt
  | .rndCopy   => s.written.h
  | .rndStep j => s.written.v && s.written.w[j.toNat]'j.isLt
  | .blkAdd    => s.written.h && s.written.v
  | .ser       => s.written.h
  | .padCopy | .hInit | .start => true

/-- Every location of the host's that operation `i` reads has been written by the host since the last reset (R88, R91,
R120; R163; of PAD.ZERO none, log 24). Asked of operations performed out of order only, of which START is none (log 9, log 23). -/
def State.hostReadsWritten (s : State) (i : Instr) : Bool :=
  match i with
  | .padCopy => s.written.len && (List.range s.len.toNat).all fun a => (s.msg.read? a).isSome
  | .padLen | .start => s.written.len
  | .padMark | .padZero | .hInit | .blkLoad | .schExp _ | .rndCopy | .rndStep _ | .blkAdd | .ser => true

/-- The next-position table of R122, read after the operation. A resting position has no row and stays. The rows of
BLK.ADD need `BLK <= NBLK - 1`; past that the next position is a free value (log 7). -/
def Position.next (p : Position) (nblk : BitVec 56) : Position :=
  match p.phase with
  | .pCopy  => { p with phase := .pMark }
  | .pMark  => { p with phase := .pZero }
  | .pZero  => { p with phase := .pLen }
  | .pLen   => { p with phase := .hInit }
  | .hInit  => { p with phase := .bLoad, blk := 0 }
  | .bLoad  => { p with phase := .sExp, j := 16 }
  | .sExp   => if p.j.toNat < 63 then { p with j := p.j + 1 } else { p with phase := .rCopy }
  | .rCopy  => { p with phase := .rStep, j := 0 }
  | .rStep  => if p.j.toNat < 63 then { p with j := p.j + 1 } else { p with phase := .bAdd }
  | .bAdd   =>
    if p.blk.toNat + 1 < nblk.toNat then { p with phase := .bLoad, blk := p.blk + 1 }
    else if p.blk.toNat + 1 = nblk.toNat then { p with phase := .serial }
    else Config.strayPosition p nblk
  | .serial => { p with phase := .done }
  | .idle | .done | .fault => p

/-- The position write that ends a step of the sequencer (R119, R122), recorded. -/
def State.advance (s : State) : State :=
  let q := s.position.next s.nblk
  { s.atPosition q with written := s.written.byPositionWrite s.position q }

end Sys2Proof.Machine
end

