-- ==== Sys2Proof/Machine/Command.lean ====
section
/-! DEFINITION. The host command START (43_sequencer.md R120, R121; 60_exceptions.md R140, R141). -/

namespace Sys2Proof.Machine

/-- START (R120): in IDLE or DONE the length is checked, the overflow first (R146), and the padder starts or LengthFault
is taken; in BUSY or FAULT the command is dropped. -/
def execStart (s : State) : Result :=
  if s.phase = .idle ∨ s.phase = .done then
    if 2 ^ 61 ≤ s.len.toNat then .next (s.raiseLengthFault .lenOverflow)
    else if s.msgSize < s.len.toNat then .next (s.raiseLengthFault .lenCapacity)
    else .next { s with cause := .none, phase := .pCopy }
  else .next s

end Sys2Proof.Machine
end

