-- ==== Sys2Proof/Machine/Padder.lean ====
section
/-! DEFINITION. The padder: PAD.COPY, PAD.MARK, PAD.ZERO, PAD.LEN (40_padder.md R88 to R91). -/

namespace Sys2Proof.Machine

/-- PAD.COPY (R88): `PAD[0..LEN-1] <- MSG[0..LEN-1]`, `PLEN <- LEN`. -/
def execPadCopy (s : State) : Result :=
  if inside 0 s.len.toNat s.msgSize then
    .next { s with pad := s.pad.store 0 (s.message s.len.toNat), plen := s.len.setWidth 62 }
  else .fault .noMsgAddress

/-- PAD.MARK (R89): `PAD[PLEN] <- 0x80`, `PLEN <- PLEN + 1`. -/
def execPadMark (s : State) : Result := s.appendPad [0x80]

/-- PAD.ZERO (R90): `z` zero bytes appended, `z = (56 - PLEN) mod 64`. DESIGN CHOICE (log 24): it reads `PLEN` only, as R90
lists, and not `LEN`, of which R20's table makes it a reader. -/
def execPadZero (s : State) : Result := s.appendPad (List.replicate (zeroCount s.plen.toNat) 0)

/-- PAD.LEN (R91): the 8-byte bit length appended, `NBLK <- (PLEN + 8) div 64`. -/
def execPadLen (s : State) : Result :=
  { s with nblk := BitVec.ofNat 56 ((s.plen.toNat + 8) / 64) }.appendPad (lengthBytes (bitLength s.len))

end Sys2Proof.Machine
end

