-- ==== Sys2Proof/Machine/Rounds.lean ====
section
/-! DEFINITION. The round-function datapath: H.INIT, RND.COPY, RND.STEP, BLK.ADD (42_rounds.md R110 to R113). -/

namespace Sys2Proof.Machine

/-- H.INIT (R110): `H <- IV`. -/
def execHInit (s : State) : Result := .next { s with h := romIV }

/-- RND.COPY (R111): `V <- H`. -/
def execRndCopy (s : State) : Result := .next { s with v := s.h }

/-- RND.STEP j (R112): one round with `K[j]` and `W[j]`. -/
def execRndStep (j : BitVec 6) (s : State) : Result :=
  .next { s with v := roundStep (romK[j.toNat]'j.isLt) (s.scheduled j) s.v }

/-- BLK.ADD (R113): `H[k] <- H[k] + V[k]`, eight independent additions. -/
def execBlkAdd (s : State) : Result := .next { s with h := addWords s.h s.v }

end Sys2Proof.Machine
end

