-- ==== Sys2Proof/Machine/Schedule.lean ====
section
/-! DEFINITION. The message-schedule expander: BLK.LOAD, SCH.EXP (41_schedule.md R98, R99). -/

namespace Sys2Proof.Machine

/-- BLK.LOAD (R98): `W[0..15] <-` the 16 big-endian words of block `BLK` of `PAD`. -/
def execBlkLoad (s : State) : Result :=
  if inside (64 * s.blk.toNat) 64 s.padSize then
    .next { s with w := Vector.ofFn fun t : Fin 64 => if t.val < 16 then s.padWord (64 * s.blk.toNat) t else s.w[t] }
  else .fault .noPadAddress

/-- SCH.EXP j (R99), `16 <= j <= 63`. Below 16 it is no operation (R72). -/
def execSchExp (j : BitVec 6) (s : State) : Result :=
  if 16 ≤ j.toNat then
    .next { s with w := s.w.set j.toNat (scheduleWord (s.scheduled (j - 16)) (s.scheduled (j - 15)) (s.scheduled (j - 7))
      (s.scheduled (j - 2))) j.isLt }
  else .refused (.illegalOperation .scheduleIndexBelow16)

end Sys2Proof.Machine
end

