-- ==== Sys2Proof/Machine/Serializer.lean ====
section
/-! DEFINITION. The serializer: SER (43_sequencer.md R126). -/

namespace Sys2Proof.Machine

/-- SER (R126): `DG[0..31] <-` the big-endian bytes of `H`. -/
def execSer (s : State) : Result := .next { s with dg := s.dg.store 0 (digestBytes s.h) }

end Sys2Proof.Machine
end

