-- ==== Sys2Proof/Machine/Dispatch.lean ====
section
/-! DEFINITION. The meaning of every instruction: one arm per constructor. -/

namespace Sys2Proof.Machine

def exec (i : Instr) (s : State) : Host.Outcome State Fault Refusal :=
  match i with
  | .padCopy => Sys2Proof.Machine.execPadCopy s
  | .padMark => Sys2Proof.Machine.execPadMark s
  | .padZero => Sys2Proof.Machine.execPadZero s
  | .padLen => Sys2Proof.Machine.execPadLen s
  | .hInit => Sys2Proof.Machine.execHInit s
  | .blkLoad => Sys2Proof.Machine.execBlkLoad s
  | .schExp j => Sys2Proof.Machine.execSchExp j s
  | .rndCopy => Sys2Proof.Machine.execRndCopy s
  | .rndStep j => Sys2Proof.Machine.execRndStep j s
  | .blkAdd => Sys2Proof.Machine.execBlkAdd s
  | .ser => Sys2Proof.Machine.execSer s
  | .start => Sys2Proof.Machine.execStart s

end Sys2Proof.Machine
end

