-- ==== Sys2Proof/Machine/Agents.lean ====
section
/-! DEFINITION. The two agents (43_sequencer.md R118): the sequencer's turn (R119), the host's actions (R128 to R131)
and the RESET input (R158), one turn each, and the operation word fed by hand (R73). -/

namespace Sys2Proof.Machine

/-- The sequencer's turn (R119): fetch the position's operation word, perform the operation, write the next position.
In IDLE, DONE and FAULT nothing happens. It makes no check for unwritten locations: R165 shows that it reads none (log 9). -/
def sequencerTurn (s : State) : Result :=
  match s.position.opWord with
  | none => .next s
  | some w =>
    match decodeOpw w with
    | .error why => .refused (.illegalOperation why)
    | .ok i =>
      match exec i s with
      | .next t => .next (t.recordOperation i).advance
      | .fault f => .fault f
      | .refused r => .refused r

/-- A host write to `CTRL` (R30, R74): 1 performs START, 0 does nothing, a reserved value is refused. DESIGN CHOICE (log
23): a START whose `LEN` the host has not written since the last reset is not stopped for that (U7 would allow it); its length
check reads whatever `LEN` holds. -/
def hostWriteCtrl (v : BitVec 32) (s : State) : Result :=
  match decodeCtrl v with
  | .ok i => exec i s
  | .error .noCommand => .next s
  | .error _ => .refused (.reservedControlValue v)

/-- A host write to `LEN` (R29, R130): any value is stored, unchecked; dropped while BUSY (R131). -/
def hostWriteLen (n : BitVec 64) (s : State) : Result :=
  if s.phase.busy then .next s else .next { s with len := n, written := { s.written with len := true } }

/-- A host write to `MSG[t]` (R130); dropped while BUSY (R131). -/
def hostWriteMsg (t : Nat) (v : Byte) (s : State) : Result :=
  if s.msgSize ≤ t then .refused .noSuchAddress
  else if s.phase.busy then .next s
  else .next { s with msg := s.msg.store t [v] }

/-- A host read of `STATUS`, in any phase (R128). -/
def hostReadStatus (s : State) : Result := .next { s with reply := some (.status s.status) }

/-- A host read of `LEN`, when not BUSY (R40, R130). DESIGN CHOICE (log 25): a `LEN` the host has not written since the last
reset is read like any other, and what it holds is returned, where R42 and U7 allow a draw, a refusal or an error. -/
def hostReadLen (s : State) : Result :=
  if s.phase.busy then .refused .readWhileBusy else .next { s with reply := some (.len s.len) }

/-- A host read of `MSG[t]`, when not BUSY (R40, R130). -/
def hostReadMsg (t : Nat) (s : State) : Result :=
  if s.msgSize ≤ t then .refused .noSuchAddress
  else if s.phase.busy then .refused .readWhileBusy
  else .next { s with reply := some (.msg (s.msgByte t)) }

/-- A host read of `DG[t]`, defined only in DONE (R129). -/
def hostReadDg (t : Nat) (s : State) : Result :=
  if digestSize ≤ t then .refused .noSuchAddress
  else if s.phase = .done then .next { s with reply := some (.dg (s.dgByte t)) }
  else .refused .digestNotReady

/-- The host's actions. `CTRL` cannot be read (R30); a write to `STATUS` is dropped (R31). -/
def hostAct (a : HostAction) (s : State) : Result :=
  match a with
  | .writeCtrl v   => hostWriteCtrl v s
  | .writeStatus _ => .next s
  | .writeLen n    => hostWriteLen n s
  | .writeMsg t v  => hostWriteMsg t v s
  | .readCtrl      => .refused .readOfControl
  | .readStatus    => hostReadStatus s
  | .readLen       => hostReadLen s
  | .readMsg t     => hostReadMsg t s
  | .readDg t      => hostReadDg t s

/-- A legal operation word performed out of the sequencer's order (R73): its rule's meaning on whatever state it finds; but
an operation that reads a location nobody has written since the last reset is a fault, never a read of zero (R73, D22, U7,
U15; log 9). An illegal word is refused by name (R72). DESIGN CHOICE (log 21): the position stays as it stands, for R122 gives
an operation out of order no position write. -/
def performOutOfOrder (w : BitVec 10) (s : State) : Result :=
  match decodeOpw w with
  | .error why => .refused (.illegalOperation why)
  | .ok i =>
    match exec i s with
    | .next t =>
      if s.engineReadsWritten i && s.hostReadsWritten i then .next (t.recordOperation i) else .fault .unwrittenRead
    | .fault f => .fault f
    | .refused r => .refused r

/-- An operation word fed by hand. The word that is due is the sequencer's own step, the position write of R122 included: a
trace fed word by word goes where the sequencer goes (95_test_vectors.md section 9; log 21). Any other is out of order. -/
def feedWord (w : BitVec 10) (s : State) : Result :=
  if s.position.opWord = some w then sequencerTurn s else performOutOfOrder w s

/-- One turn: RESET wins over everything (R146). -/
def takeTurn (t : Turn) (s : State) : Result :=
  if t.reset then .next s.resetInput
  else match t.event with
    | .sequencer => sequencerTurn s
    | .host a    => hostAct a s
    | .feed w    => feedWord w s

/-- The turn in which the outside world does nothing: the sequencer's. -/
def Turn.sequencer : Turn := ⟨false, .sequencer⟩

/-- The turn in which the host takes one action. -/
def Turn.host (a : HostAction) : Turn := ⟨false, .host a⟩

/-- The turn in which an operation word is performed by hand. -/
def Turn.feed (w : BitVec 10) : Turn := ⟨false, .feed w⟩

/-- The turn in which RESET is asserted and nothing else would happen. -/
def Turn.resetOnly : Turn := ⟨true, .sequencer⟩

/-- The turn to be taken: the next one of the outside world; when none is left, the sequencer's. -/
def State.nextTurn (s : State) : Turn := s.turns.head?.getD Turn.sequencer

/-- The state in which that turn is taken: the turn is no longer to come. -/
def State.dropTurn (s : State) : State := { s with turns := s.turns.tail }

/-- A legal operation word becomes the sequencer's position, and the turn is the sequencer's; an illegal one, which no
position has, is fed by hand, to be refused (log 8). -/
def placeOpw (s : State) (w : BitVec 10) : State :=
  match decodeOpw w with
  | .ok _    => { s.atPosition (s.position.forWord w) with turns := Turn.sequencer :: s.turns }
  | .error _ => { s with turns := Turn.feed w :: s.turns }

/-- The instruction word placed to be run next: an operation word (10 bits in a number of 16) as `placeOpw` says, a wider
word as the host's next write to `CTRL` (log 8). DESIGN CHOICE (log 8): a number with bits beyond its format's, which
`decodeTableWord` does not read, is placed as a word that its format refuses, 0x000 (R72) or the reserved value of all ones
(R74). -/
def placeWord (s : State) (nbits w : Nat) : State :=
  if nbits ≤ 16 then placeOpw s (if w < 2 ^ 10 then BitVec.ofNat 10 w else 0x000)
  else { s with turns := Turn.host (.writeCtrl (if w < 2 ^ 32 then BitVec.ofNat 32 w else 0xFFFFFFFF)) :: s.turns }

end Sys2Proof.Machine
end

