-- ==== Sys2Proof/Machine/Step.lean ====
section
/-! DEFINITION. One step: the next turn of the outside world is taken; when none is left, the sequencer acts. -/

namespace Sys2Proof.Machine

/-- One step (R118, R119). -/
def step (s : State) : Host.Outcome State Fault Refusal := takeTurn s.nextTurn s.dropTurn

/-- The state whose next step runs the instruction word `w` (log 8). -/
def State.withFetchWord (s : State) (nbits w : Nat) : State := placeWord s nbits w

end Sys2Proof.Machine
end

