-- ==== Sys2Proof/Machine/BigStep.lean ====
section
/-! DEFINITION. The big-step functions of the spec (43_sequencer.md R133 to R135), written over byte lists, with no
state: the engine's operations are stated against them. The spec gives `pad(M)` and `digest(M)` for messages of fewer than
`2^61` bytes only; these functions are total, and what they give for longer lists is the model's (DESIGN CHOICE, log 20). -/

namespace Sys2Proof.Machine

/-- `pad(M)` (R133), for `M` of fewer than `2^61` bytes. DESIGN CHOICE (log 20): for a longer list, to which the spec
gives no padding (R4 (d), U1), the length field keeps 64 bits of `8 * L`. -/
def padMessage (m : List Byte) : List Byte :=
  m ++ [0x80] ++ List.replicate ((55 - (m.length : Int)) % 64).toNat 0 ++ lengthBytes (BitVec.ofNat 64 (8 * m.length))

/-- Word `t` of a block of 64 bytes (R66). DESIGN CHOICE (log 22): of a shorter list a missing byte reads as 0. -/
def blockWord (b : List Byte) (t : Nat) : Word :=
  be32 (b.getD (4 * t) 0) (b.getD (4 * t + 1) 0) (b.getD (4 * t + 2) 0) (b.getD (4 * t + 3) 0)

/-- One more schedule word (R134): `w[j]` from the `j >= 16` words so far. -/
def extendSchedule (w : List Word) : List Word :=
  w ++ [scheduleWord (w.getD (w.length - 16) 0) (w.getD (w.length - 15) 0) (w.getD (w.length - 7) 0)
    (w.getD (w.length - 2) 0)]

/-- The schedule of a block after `n` expansions (R134). -/
def scheduleAfter (b : List Byte) : Nat → List Word
  | 0 => (List.range 16).map (blockWord b)
  | n + 1 => extendSchedule (scheduleAfter b n)

/-- The 64 schedule words of a block (R134). -/
def scheduleOf (b : List Byte) : List Word := scheduleAfter b 48

/-- The working registers after the first `n` rounds (R134). -/
def roundsAfter (w : List Word) (h : Vector Word 8) : Nat → Vector Word 8
  | 0 => h
  | n + 1 => roundStep (romK.toList.getD n 0) (w.getD n 0) (roundsAfter w h n)

/-- `compress(h, B)` (R134), for a block `B` of 64 bytes. DESIGN CHOICE (log 22): for another list, to which the spec gives no
meaning (R52, R134), a missing byte counts as 0 and the bytes past the 64th are ignored. -/
def compress (h : Vector Word 8) (b : List Byte) : Vector Word 8 := addWords h (roundsAfter (scheduleOf b) h 64)

/-- Block `i` of a padded buffer (R48); shorter than 64 bytes where the buffer ends inside it (log 22). -/
def blockOf (p : List Byte) (i : Nat) : List Byte := (p.drop (64 * i)).take 64

/-- The hash state after the first `n` blocks of a padded buffer (R135), `n` at most its number of blocks. DESIGN CHOICE (log
22): past its end it goes on over incomplete blocks as `compress` says; `compressor` refuses such a buffer. -/
def hashAfter (p : List Byte) : Nat → Vector Word 8
  | 0 => romIV
  | n + 1 => compress (hashAfter p n) (blockOf p n)

/-- The compressor on its own: a buffer whose length is not a multiple of 64 is given no meaning (R52). -/
def compressor (p : List Byte) : Option (Vector Word 8) :=
  if p.length % 64 = 0 then some (hashAfter p (p.length / 64)) else none

/-- `digest(M)` (R135), for `M` of fewer than `2^61` bytes. DESIGN CHOICE (log 20): for a longer list, which has no
digest by the spec (U1), this is no digest value of the engine's: START turns such a length away (R121). -/
def digest (m : List Byte) : List Byte := digestBytes (hashAfter (padMessage m) ((padMessage m).length / 64))

end Sys2Proof.Machine
end

