-- ==== Sys2Proof/Machine/Trace.lean ====
section
/-! DEFINITION. Trace syntax and the pseudo-operations (30_encoding.md R76, R77). -/

namespace Sys2Proof.Machine

/-- The line of a trace that names an instruction (R76). -/
def traceLine : Instr → String
  | .padCopy   => "PAD.COPY"
  | .padMark   => "PAD.MARK"
  | .padZero   => "PAD.ZERO"
  | .padLen    => "PAD.LEN"
  | .hInit     => "H.INIT"
  | .blkLoad   => "BLK.LOAD"
  | .schExp j  => "SCH.EXP " ++ toString j.toNat
  | .rndCopy   => "RND.COPY"
  | .rndStep j => "RND.STEP " ++ toString j.toNat
  | .blkAdd    => "BLK.ADD"
  | .ser       => "SER"
  | .start     => "START"

/-- The operation word of an operation (R70); START has none, it is a `CTRL` value (R74). -/
def operationWord? (i : Instr) : Option (BitVec 10) :=
  match encode i with
  | .q w  => some w
  | .hc _ => none

/-- The pseudo-operation `PAD` (R77). -/
def padOps : List Instr := [.padCopy, .padMark, .padZero, .padLen]

/-- The pseudo-operation `EXPAND`: SCH.EXP 16 to SCH.EXP 63 (R77). -/
def expandOps : List Instr := (List.range 48).map fun k => .schExp (BitVec.ofNat 6 (16 + k))

/-- The pseudo-operation `ROUNDS`: RND.STEP 0 to RND.STEP 63 (R77). -/
def roundsOps : List Instr := (List.range 64).map fun k => .rndStep (BitVec.ofNat 6 k)

/-- The pseudo-operation `COMPRESS` (R77). -/
def compressOps : List Instr := [.blkLoad] ++ expandOps ++ [.rndCopy] ++ roundsOps ++ [.blkAdd]

/-- The pseudo-operation `DIGEST` over `nblk` blocks (R77). -/
def digestOps (nblk : Nat) : List Instr :=
  padOps ++ [.hInit] ++ (List.replicate nblk compressOps).flatten ++ [.ser]

/-- The operation due at a position (R26), if one is: the decoding of its operation word. -/
def Position.operation (p : Position) : Option Instr := p.opWord.bind fun w => (decodeOpw w).toOption

end Sys2Proof.Machine
end

