-- ==== Sys2Proof/Safety.lean ====
section
/-! DEFINITION. The terms the statements use: which phases belong to which part of an invocation, the invariant of the
machine, and when an instruction is the one due in a phase. -/

namespace Sys2Proof.Machine

/-- From the end of the padder to the end of the invocation: `PHASE` 5 to 11, in which `PLEN` and `NBLK` are final. -/
def Phase.padded (p : Phase) : Bool := decide (5 ≤ p.code.toNat ∧ p.code.toNat ≤ 11)

/-- Inside a block: `PHASE` 6 to 10, in which `BLK` names a block. -/
def Phase.inBlock (p : Phase) : Bool := decide (6 ≤ p.code.toNat ∧ p.code.toNat ≤ 10)

/-- `PHASE` 2 to 11: PAD.COPY is behind and `PLEN` counts the bytes written. -/
def Phase.counting (p : Phase) : Bool := decide (2 ≤ p.code.toNat ∧ p.code.toNat ≤ 11)

/-- A turn in which an operation word is fed by hand (R73). -/
def Turn.byHand (t : Turn) : Bool :=
  match t.event with
  | .sequencer => false
  | .host _    => false
  | .feed _    => true

/-- `PHASE` 6 to 11: H.INIT is behind and `H` holds the hash state of this invocation. -/
def Phase.hashing (p : Phase) : Bool := decide (6 ≤ p.code.toNat ∧ p.code.toNat ≤ 11)

/-- Operation `i` would read a location that nothing has written since the last reset: its rule's 'Reads' list (R88 to R91,
R98, R99, R110 to R113, R126). The constants `K` and `IV` need no write. START reads `LEN` (R120). DESIGN CHOICE (log 24): of
PAD.ZERO it is `PLEN` alone, as R90 lists, where R20's table makes it a reader of `LEN` too. -/
def State.ReadsUnwritten (s : State) (i : Instr) : Prop :=
  match i with
  | .padCopy   => s.written.len = false ∨ ∃ a, a < s.len.toNat ∧ s.msg.read? a = none
  | .padMark   => s.written.plen = false
  | .padZero   => s.written.plen = false
  | .padLen    => s.written.len = false ∨ s.written.plen = false
  | .hInit     => False
  | .blkLoad   => s.written.blk = false ∨ ∃ k, k < 64 ∧ s.pad.read? (64 * s.blk.toNat + k) = none
  | .schExp j  => ∃ d : BitVec 6, (d = 16 ∨ d = 15 ∨ d = 7 ∨ d = 2) ∧ s.written.w[(j - d).toNat]'(j - d).isLt = false
  | .rndCopy   => s.written.h = false
  | .rndStep j => s.written.v = false ∨ s.written.w[j.toNat]'j.isLt = false
  | .blkAdd    => s.written.h = false ∨ s.written.v = false
  | .ser       => s.written.h = false
  | .start     => s.written.len = false

/-- Every register that operation `i` writes is recorded: its rule's 'Writes' list (R88 to R91, R98, R99, R110 to R113, R126),
the bytes of `PAD` and `DG` aside, which the memories record themselves. START writes none of the registers recorded (R120). -/
def Written.HoldsWritesOf (m : Written) (i : Instr) : Prop :=
  match i with
  | .padCopy   => m.plen = true
  | .padMark   => m.plen = true
  | .padZero   => m.plen = true
  | .padLen    => m.plen = true ∧ m.nblk = true
  | .hInit     => m.h = true
  | .blkLoad   => ∀ k (hk : k < 16), m.w[k]'(by omega) = true
  | .schExp j  => m.w[j.toNat]'j.isLt = true
  | .rndCopy   => m.v = true
  | .rndStep _ => m.v = true
  | .blkAdd    => m.h = true
  | .ser       => True
  | .start     => True

/-- What holds of every state the hardware can be in: the memories are canonical and hold only addresses that exist; the
length of a running invocation has been checked (R121); the cause stands exactly in FAULT (R32); `PLEN`, `NBLK`, `BLK`
and `J` are what the phase says (R26, R28, R87); every byte and every register of its own that the engine will read has been
written (R165, location by location); and no operation is about to be performed by hand. -/
structure State.Inv (s : State) : Prop where
  msgWf        : s.msg.wf
  padWf        : s.pad.wf
  dgWf         : s.dg.wf
  msgBound     : ∀ c ∈ s.msg, c.1 < s.msgSize
  padBound     : ∀ c ∈ s.pad, c.1 < s.padSize
  dgBound      : ∀ c ∈ s.dg, c.1 < digestSize
  causeInFault : s.cause = .none ↔ s.phase ≠ .fault
  lenFits      : s.phase.busy = true → s.len.toNat ≤ s.msgSize
  plenCopied   : s.phase = .pMark → s.plen.toNat = s.len.toNat
  plenMarked   : s.phase = .pZero → s.plen.toNat = s.len.toNat + 1
  plenZeroed   : s.phase = .pLen → s.plen.toNat + 8 = 64 * ((s.len.toNat + 8) / 64 + 1)
  plenFinal    : s.phase.padded = true → s.plen.toNat = 64 * s.nblk.toNat
  nblkFinal    : s.phase.padded = true → s.nblk.toNat = (s.len.toNat + 8) / 64 + 1
  blkInRange   : s.phase.inBlock = true → s.blk.toNat < s.nblk.toNat
  blkLast      : s.phase = .serial → s.blk.toNat + 1 = s.nblk.toNat
  indexLegal   : s.phase = .sExp → 16 ≤ s.j.toNat
  padWritten   : s.phase.counting = true → ∀ a, a < s.plen.toNat → (s.pad.read? a).isSome = true
  dgWritten    : s.phase = .done → ∀ a, a < digestSize → (s.dg.read? a).isSome = true
  plenWritten  : s.phase.counting = true → s.written.plen = true
  nblkWritten  : s.phase.padded = true → s.written.nblk = true
  blkWritten   : s.phase.inBlock = true → s.written.blk = true
  jWritten     : s.phase = .sExp ∨ s.phase = .rStep → s.written.j = true
  hWritten     : s.phase.hashing = true → s.written.h = true
  wExpanding   : s.phase = .sExp → ∀ k (hk : k < 64), k < s.j.toNat → s.written.w[k] = true
  wWritten     : s.phase = .rCopy ∨ s.phase = .rStep → ∀ k (hk : k < 64), s.written.w[k] = true
  vWritten     : s.phase = .rStep ∨ s.phase = .bAdd → s.written.v = true
  noHand       : ∀ t ∈ s.turns, t.byHand = false

/-- The operation that a phase names (R27, R70), with the index `J` where it takes one. -/
def Position.named (p : Position) : Option Instr :=
  match p.phase with
  | .pCopy  => some .padCopy
  | .pMark  => some .padMark
  | .pZero  => some .padZero
  | .pLen   => some .padLen
  | .hInit  => some .hInit
  | .bLoad  => some .blkLoad
  | .sExp   => some (.schExp p.j)
  | .rCopy  => some .rndCopy
  | .rStep  => some (.rndStep p.j)
  | .bAdd   => some .blkAdd
  | .serial => some .ser
  | .idle | .done | .fault => none

/-- The next turn is a step of the sequencer: its own turn, or the word that is due, fed by hand. -/
def State.SequencerActs (s : State) : Prop :=
  s.nextTurn = Turn.sequencer ∨ ∃ w, s.nextTurn = Turn.feed w ∧ s.position.opWord = some w

/-- The next turn performs operation `i`: the one that is due, or another, out of order (R73). -/
def State.Performs (s : State) (i : Instr) : Prop :=
  (s.SequencerActs ∧ s.position.named = some i) ∨
    ∃ w, s.nextTurn = Turn.feed w ∧ s.position.opWord ≠ some w ∧ decodeOpw w = .ok i

/-- Instruction `i` has operation word `w` and is the operation due in phase `p`, whatever `BLK` and `J` hold. -/
def DueIn (p : Phase) (i : Instr) (w : BitVec 10) : Prop :=
  encode i = .q w ∧ decodeOpw w = .ok i ∧ ∀ blk j, (Position.mk p blk j).opWord = some w

end Sys2Proof.Machine
end

