-- ==== Sys2Proof/Certificates/Slice0/Obligations.lean ====
section
/-! DEFINITION. The statements: one definition each, formalising the rules of spec/ its docstring cites. -/

open Sys2Proof Sys2Proof.Machine

/-! ## Encoding -/

/-- R71: `decode(encode(op)) = op` for every operation, and `encode(decode(w)) = w` for every legal word; START and its
`CTRL` value (R74) included. -/
def Obligations.DecodeEncodeRoundTrip : Prop :=
  (∀ i : Instr, i.wellFormed = true → decode (encode i) = .ok i) ∧
  (∀ (c : Code) (i : Instr), decode c = .ok i → i.wellFormed = true ∧ encode i = c)

/-- R70, R78: words written out from the opcode map decode to their operations, and four illegal words do not decode. -/
def Obligations.SampleWordsDecode : Prop :=
  decodeOpw 0b0001000000 = .ok .padCopy ∧ decodeOpw 0b0010000000 = .ok .padMark ∧
  decodeOpw 0b0011000000 = .ok .padZero ∧ decodeOpw 0b0100000000 = .ok .padLen ∧
  decodeOpw 0b0101000000 = .ok .hInit ∧ decodeOpw 0b0110000000 = .ok .blkLoad ∧
  decodeOpw 0b0111010000 = .ok (.schExp 16) ∧ decodeOpw 0b0111111111 = .ok (.schExp 63) ∧
  decodeOpw 0b1000000000 = .ok .rndCopy ∧ decodeOpw 0b1001000000 = .ok (.rndStep 0) ∧
  decodeOpw 0b1001111111 = .ok (.rndStep 63) ∧ decodeOpw 0b1010000000 = .ok .blkAdd ∧
  decodeOpw 0b1011000000 = .ok .ser ∧ decodeCtrl 1 = .ok .start ∧
  decodeOpw 0x1C5 = .error .scheduleIndexBelow16 ∧ decodeOpw 0x181 = .error .indexNotZero ∧
  decodeOpw 0x000 = .error .unassignedOpcode ∧ decodeOpw 0x300 = .error .unassignedOpcode

/-- R72: the three classes of illegal words, each refused by its name and given no meaning when it is fed from outside;
every other word is an operation. -/
def Obligations.IllegalWordsRefusedByName : Prop :=
  ∀ w : BitVec 10,
    ((w.toNat / 64 = 0 ∨ 12 ≤ w.toNat / 64) → decodeOpw w = .error .unassignedOpcode) ∧
    (w.toNat / 64 = 7 → w.toNat % 64 < 16 → decodeOpw w = .error .scheduleIndexBelow16) ∧
    (1 ≤ w.toNat / 64 → w.toNat / 64 ≤ 11 → w.toNat / 64 ≠ 7 → w.toNat / 64 ≠ 9 → w.toNat % 64 ≠ 0 →
      decodeOpw w = .error .indexNotZero) ∧
    (∀ why s, decodeOpw w = .error why → takeTurn (Turn.feed w) s = .refused (.illegalOperation why)) ∧
    (1 ≤ w.toNat / 64 → w.toNat / 64 ≤ 11 →
      (w.toNat % 64 = 0 ∧ w.toNat / 64 ≠ 7) ∨ (w.toNat / 64 = 7 ∧ 16 ≤ w.toNat % 64) ∨ w.toNat / 64 = 9 →
      ∃ i, decodeOpw w = .ok i)

/-- R69: the operation word of a position is `PHASE * 64 + (J if PHASE = 7 or PHASE = 9 else 0)`; it decodes to the
operation the phase names, SCH.EXP with its index in range; a resting position has none. -/
def Obligations.OperationWordOfPosition : Prop :=
  ∀ p : Position,
    (p.phase.busy = false → p.opWord = none) ∧
    (p.phase.busy = true → ∃ w, p.opWord = some w ∧
      w.toNat = p.phase.code.toNat * 64 +
        (if p.phase.code.toNat = 7 ∨ p.phase.code.toNat = 9 then p.j.toNat else 0) ∧
      ((p.phase = .sExp → 16 ≤ p.j.toNat) → ∃ i, p.named = some i ∧ decodeOpw w = .ok i))

/-! ## The step -/

/-- What a step does around `exec` (R119, R120; the turns and the record of writes are the model's, log 5, log 9): in the
sequencer's turn the decoded operation and then the position write; in a turn of the host its action, START if that is what
it writes to `CTRL`; in a turn that feeds a word by hand, the sequencer's step if that word is due (log 21), and else its operation,
the position as it stands, with a stop unless all it reads is written (R73; that PAD.ZERO reads `PLEN` only, and so completes
out of order whether or not `LEN` is written, is the model's choice between R90 and R20's table, log 24); in a turn with RESET
asserted, RESET and nothing else (R146). With no turn left the sequencer acts. -/
def Obligations.StepRunsDecodedInstruction : Prop :=
  (∀ s w i, s.turns = [] → s.position.opWord = some w → decodeOpw w = .ok i →
    (∀ t, exec i s = .next t → ∃ m, step s = .next { t.atPosition (t.position.next t.nblk) with written := m }) ∧
    (∀ f, exec i s = .fault f → step s = .fault f) ∧ (∀ r, exec i s = .refused r → step s = .refused r)) ∧
  (∀ s rest w i, s.turns = Turn.sequencer :: rest → s.position.opWord = some w → decodeOpw w = .ok i →
    (∀ t, exec i { s with turns := rest } = .next t →
      ∃ m, step s = .next { t.atPosition (t.position.next t.nblk) with written := m }) ∧
    (∀ f, exec i { s with turns := rest } = .fault f → step s = .fault f) ∧
    (∀ r, exec i { s with turns := rest } = .refused r → step s = .refused r)) ∧
  (∀ s rest v i, s.turns = Turn.host (.writeCtrl v) :: rest → decodeCtrl v = .ok i →
    step s = exec i { s with turns := rest }) ∧
  (∀ s rest a, s.turns = Turn.host a :: rest → step s = hostAct a { s with turns := rest }) ∧
  (∀ s rest ev, s.turns = ⟨true, ev⟩ :: rest → step s = .next ({ s with turns := rest } : State).resetInput) ∧
  (∀ s rest w, s.turns = Turn.feed w :: rest → s.position.opWord = some w →
    step s = step { s with turns := Turn.sequencer :: rest }) ∧
  (∀ s rest w i, s.turns = Turn.feed w :: rest → s.position.opWord ≠ some w → decodeOpw w = .ok i →
    (∀ t, exec i { s with turns := rest } = .next t →
      (¬ s.ReadsUnwritten i → ∃ m, step s = .next { t with written := m }) ∧
      (s.ReadsUnwritten i → step s = .fault .unwrittenRead)) ∧
    (∀ f, exec i { s with turns := rest } = .fault f → step s = .fault f) ∧
    (∀ r, exec i { s with turns := rest } = .refused r → step s = .refused r))

/-- R119: in IDLE, DONE and FAULT the sequencer has no step. In the model such a turn passes and changes nothing
(log 5). -/
def Obligations.RestingSequencerChangesNothing : Prop :=
  ∀ s, s.phase = .idle ∨ s.phase = .done ∨ s.phase = .fault →
    (s.turns = [] → step s = .next s) ∧
    (∀ rest, s.turns = Turn.sequencer :: rest → step s = .next { s with turns := rest })

/-- R122: the next-position table, as what a step of the sequencer leaves in `PHASE`, `BLK` and `J`, `NBLK` being read
after the operation. -/
def Obligations.NextPositionTable : Prop :=
  ∀ s t, s.turns = [] → step s = .next t →
    (s.phase = .pCopy → t.position = ⟨.pMark, s.blk, s.j⟩) ∧
    (s.phase = .pMark → t.position = ⟨.pZero, s.blk, s.j⟩) ∧
    (s.phase = .pZero → t.position = ⟨.pLen, s.blk, s.j⟩) ∧
    (s.phase = .pLen → t.position = ⟨.hInit, s.blk, s.j⟩) ∧
    (s.phase = .hInit → t.position = ⟨.bLoad, 0, s.j⟩) ∧
    (s.phase = .bLoad → t.position = ⟨.sExp, s.blk, 16⟩) ∧
    (s.phase = .sExp → s.j.toNat < 63 → t.position = ⟨.sExp, s.blk, s.j + 1⟩) ∧
    (s.phase = .sExp → s.j.toNat = 63 → t.position = ⟨.rCopy, s.blk, s.j⟩) ∧
    (s.phase = .rCopy → t.position = ⟨.rStep, s.blk, 0⟩) ∧
    (s.phase = .rStep → s.j.toNat < 63 → t.position = ⟨.rStep, s.blk, s.j + 1⟩) ∧
    (s.phase = .rStep → s.j.toNat = 63 → t.position = ⟨.bAdd, s.blk, s.j⟩) ∧
    (s.phase = .bAdd → s.blk.toNat + 1 < t.nblk.toNat → t.position = ⟨.bLoad, s.blk + 1, s.j⟩) ∧
    (s.phase = .bAdd → s.blk.toNat + 1 = t.nblk.toNat → t.position = ⟨.serial, s.blk, s.j⟩) ∧
    (s.phase = .serial → t.position = ⟨.done, s.blk, s.j⟩)

/-! ## The padder -/

/-- R88: PAD.COPY. -/
def Obligations.PadCopyCopiesMessage : Prop :=
  DueIn .pCopy .padCopy 0x040 ∧
  ∀ s, s.len.toNat ≤ s.msgSize → ∃ t, exec .padCopy s = .next t ∧
    (∀ a, a < s.len.toNat → t.pad.read? a = some (s.msgByte a)) ∧
    (∀ a, s.len.toNat ≤ a → t.pad.read? a = s.pad.read? a) ∧
    t.plen.toNat = s.len.toNat ∧
    t = { s with pad := t.pad, plen := t.plen }

/-- R89: PAD.MARK. -/
def Obligations.PadMarkAppendsMarker : Prop :=
  DueIn .pMark .padMark 0x080 ∧
  ∀ s, s.plen.toNat < s.padSize → ∃ t, exec .padMark s = .next t ∧
    t.pad.read? s.plen.toNat = some 0x80 ∧
    (∀ a, a ≠ s.plen.toNat → t.pad.read? a = s.pad.read? a) ∧
    t.plen.toNat = s.plen.toNat + 1 ∧
    t = { s with pad := t.pad, plen := t.plen }

/-- R90: PAD.ZERO; `z` is the least count of zero bytes that brings the length to 56 modulo 64. -/
def Obligations.PadZeroFillsTo56 : Prop :=
  DueIn .pZero .padZero 0x0C0 ∧
  ∀ s z, z < 64 → (s.plen.toNat + z) % 64 = 56 → (z = 0 ∨ s.plen.toNat + z ≤ s.padSize) →
    ∃ t, exec .padZero s = .next t ∧
      (∀ a, s.plen.toNat ≤ a → a < s.plen.toNat + z → t.pad.read? a = some 0x00) ∧
      (∀ a, a < s.plen.toNat ∨ s.plen.toNat + z ≤ a → t.pad.read? a = s.pad.read? a) ∧
      t.plen.toNat = s.plen.toNat + z ∧
      t = { s with pad := t.pad, plen := t.plen }

/-- R91: PAD.LEN, for `LEN < 2^61` (R86); byte `k` of the field is bits `63-8k` to `56-8k` of `8 * LEN`. -/
def Obligations.PadLenAppendsBitLength : Prop :=
  DueIn .pLen .padLen 0x100 ∧
  ∀ s, s.len.toNat < 2 ^ 61 → s.plen.toNat + 8 ≤ s.padSize → ∃ t, exec .padLen s = .next t ∧
    (∀ k, k < 8 → (t.pad.read? (s.plen.toNat + k)).map BitVec.toNat =
      some (8 * s.len.toNat / 2 ^ (56 - 8 * k) % 256)) ∧
    (∀ a, a < s.plen.toNat ∨ s.plen.toNat + 8 ≤ a → t.pad.read? a = s.pad.read? a) ∧
    t.plen.toNat = s.plen.toNat + 8 ∧ t.nblk.toNat = (s.plen.toNat + 8) / 64 ∧
    t = { s with pad := t.pad, plen := t.plen, nblk := t.nblk }

/-- The model's choice (log 15), no rule of the spec: on a length of `2^61` or more, which START turns away (R121), PAD.LEN
run by hand completes all the same; the field keeps the low 64 bits of `8 * LEN`. -/
def Obligations.PadLenBeyondDomain : Prop :=
  ∀ s, 2 ^ 61 ≤ s.len.toNat → s.plen.toNat + 8 ≤ s.padSize → ∃ t, exec .padLen s = .next t ∧
    (∀ k, k < 8 → (t.pad.read? (s.plen.toNat + k)).map BitVec.toNat =
      some (8 * s.len.toNat % 2 ^ 64 / 2 ^ (56 - 8 * k) % 256)) ∧
    (∀ a, a < s.plen.toNat ∨ s.plen.toNat + 8 ≤ a → t.pad.read? a = s.pad.read? a) ∧
    t.plen.toNat = s.plen.toNat + 8 ∧ t.nblk.toNat = (s.plen.toNat + 8) / 64 ∧
    t = { s with pad := t.pad, plen := t.plen, nblk := t.nblk }

/-- R92 and R133: the four padder operations in order, from any state whose length has been checked. -/
def Obligations.PadderPostcondition : Prop :=
  ∀ s : State, s.turns = [] → s.phase = .pCopy → s.len.toNat ≤ s.msgSize →
    ∃ t : State, Host.Core.run core 4 s = .next t ∧ t.phase = .hInit ∧
      t.plen.toNat = 64 * ((s.len.toNat + 8) / 64 + 1) ∧ t.nblk.toNat = t.plen.toNat / 64 ∧
      (∀ a, a < s.len.toNat → t.pad.read? a = some (s.msgByte a)) ∧
      t.pad.read? s.len.toNat = some 0x80 ∧
      (∀ a, s.len.toNat < a → a < t.plen.toNat - 8 → t.pad.read? a = some 0x00) ∧
      (∀ k, k < 8 → t.pad.read? (t.plen.toNat - 8 + k) = some (lenByte k (8 * s.len))) ∧
      (∀ a, t.plen.toNat ≤ a → t.pad.read? a = s.pad.read? a) ∧
      (List.range t.plen.toNat).map t.padByte = padMessage (s.message s.len.toNat) ∧
      t = { s with phase := .hInit, pad := t.pad, plen := t.plen, nblk := t.nblk, written := t.written }

/-- R133, R52: `pad(M)` has length `64 * ((L + 8) div 64 + 1)`, so that the compressor, which refuses a buffer whose
length is not a multiple of 64, always takes it. For `L` of `2^61` or more this is of the model's total functions only
(log 20): the spec gives no `pad(M)` there. -/
def Obligations.PaddedMessageIsWholeBlocks : Prop :=
  (∀ m : List Byte, (padMessage m).length = 64 * ((m.length + 8) / 64 + 1) ∧
    (compressor (padMessage m)).map digestBytes = some (digest m)) ∧
  (∀ p : List Byte, p.length % 64 ≠ 0 → compressor p = none)

/-- R95: two different messages in the domain never have the same padded buffer. -/
def Obligations.PaddingIsInjective : Prop :=
  ∀ m n : List Byte, m.length < 2 ^ 61 → n.length < 2 ^ 61 → padMessage m = padMessage n → m = n

/-! ## The schedule -/

/-- R98: BLK.LOAD. -/
def Obligations.BlkLoadReadsBigEndianWords : Prop :=
  DueIn .bLoad .blkLoad 0x180 ∧
  ∀ s, 64 * s.blk.toNat + 64 ≤ s.padSize → ∃ t, exec .blkLoad s = .next t ∧
    (∀ k (hk : k < 16), (t.w[k]'(by omega)).toNat =
      (s.padByte (64 * s.blk.toNat + 4 * k)).toNat * 2 ^ 24 + (s.padByte (64 * s.blk.toNat + 4 * k + 1)).toNat * 2 ^ 16 +
        (s.padByte (64 * s.blk.toNat + 4 * k + 2)).toNat * 2 ^ 8 + (s.padByte (64 * s.blk.toNat + 4 * k + 3)).toNat) ∧
    (∀ k (hk : k < 64), 16 ≤ k → t.w[k] = s.w[k]) ∧
    t = { s with w := t.w }

/-- R99: SCH.EXP, all sums modulo 2^32. -/
def Obligations.SchExpAppliesRecurrence : Prop :=
  (∀ j : BitVec 6, 16 ≤ j.toNat → encode (.schExp j) = .q (BitVec.ofNat 10 (0x1C0 + j.toNat)) ∧
    ∀ blk, (Position.mk .sExp blk j).opWord = some (BitVec.ofNat 10 (0x1C0 + j.toNat))) ∧
  ∀ (j : BitVec 6) s, (hj : 16 ≤ j.toNat) → ∃ t, exec (.schExp j) s = .next t ∧
    t.w[j.toNat]'j.isLt =
      s.w[j.toNat - 16]'(by omega) + sigma0 (s.w[j.toNat - 15]'(by omega)) + s.w[j.toNat - 7]'(by omega) +
        sigma1 (s.w[j.toNat - 2]'(by omega)) ∧
    (∀ k (hk : k < 64), k ≠ j.toNat → t.w[k] = s.w[k]) ∧
    t = { s with w := t.w }

/-- R100: after BLK.LOAD and SCH.EXP 16 to 63 the recurrence holds between the final values, and the first sixteen words
are those of the block; nothing but `W` and the position has changed. -/
def Obligations.ScheduleAfterExpansion : Prop :=
  ∀ s : State, s.turns = [] → s.phase = .bLoad → 64 * s.blk.toNat + 64 ≤ s.padSize →
    ∃ t : State, Host.Core.run core 49 s = .next t ∧ t.phase = .rCopy ∧
      (∀ k (hk : k < 16), t.w[k]'(by omega) = be32 (s.padByte (64 * s.blk.toNat + 4 * k))
        (s.padByte (64 * s.blk.toNat + 4 * k + 1)) (s.padByte (64 * s.blk.toNat + 4 * k + 2))
        (s.padByte (64 * s.blk.toNat + 4 * k + 3))) ∧
      (∀ j (hj : j < 64), (h16 : 16 ≤ j) → t.w[j] = t.w[j - 16]'(by omega) + sigma0 (t.w[j - 15]'(by omega)) +
        t.w[j - 7]'(by omega) + sigma1 (t.w[j - 2]'(by omega))) ∧
      t = { s with phase := .rCopy, j := 63, w := t.w, written := t.written }

/-! ## The rounds -/

/-- R110 with R25: H.INIT. -/
def Obligations.HInitLoadsInitialValues : Prop :=
  DueIn .hInit .hInit 0x140 ∧
  ∀ s, exec .hInit s = .next { s with h := #v[0x6A09E667, 0xBB67AE85, 0x3C6EF372, 0xA54FF53A, 0x510E527F, 0x9B05688C,
    0x1F83D9AB, 0x5BE0CD19] }

/-- R111: RND.COPY. -/
def Obligations.RndCopyCopiesHashState : Prop :=
  DueIn .rCopy .rndCopy 0x200 ∧
  ∀ s, ∃ t, exec .rndCopy s = .next t ∧ (∀ k (hk : k < 8), t.v[k] = s.h[k]) ∧ t = { s with v := t.v }

/-- R112 with R108, R109 and R24: RND.STEP, every right side read before the round, and the 64 round constants. -/
def Obligations.RndStepIsOneRound : Prop :=
  (∀ j : BitVec 6, encode (.rndStep j) = .q (BitVec.ofNat 10 (0x240 + j.toNat)) ∧
    ∀ blk, (Position.mk .rStep blk j).opWord = some (BitVec.ofNat 10 (0x240 + j.toNat))) ∧
  romK.toList =
    [0x428A2F98, 0x71374491, 0xB5C0FBCF, 0xE9B5DBA5, 0x3956C25B, 0x59F111F1, 0x923F82A4, 0xAB1C5ED5] ++
    [0xD807AA98, 0x12835B01, 0x243185BE, 0x550C7DC3, 0x72BE5D74, 0x80DEB1FE, 0x9BDC06A7, 0xC19BF174] ++
    [0xE49B69C1, 0xEFBE4786, 0x0FC19DC6, 0x240CA1CC, 0x2DE92C6F, 0x4A7484AA, 0x5CB0A9DC, 0x76F988DA] ++
    [0x983E5152, 0xA831C66D, 0xB00327C8, 0xBF597FC7, 0xC6E00BF3, 0xD5A79147, 0x06CA6351, 0x14292967] ++
    [0x27B70A85, 0x2E1B2138, 0x4D2C6DFC, 0x53380D13, 0x650A7354, 0x766A0ABB, 0x81C2C92E, 0x92722C85] ++
    [0xA2BFE8A1, 0xA81A664B, 0xC24B8B70, 0xC76C51A3, 0xD192E819, 0xD6990624, 0xF40E3585, 0x106AA070] ++
    [0x19A4C116, 0x1E376C08, 0x2748774C, 0x34B0BCB5, 0x391C0CB3, 0x4ED8AA4A, 0x5B9CCA4F, 0x682E6FF3] ++
    [0x748F82EE, 0x78A5636F, 0x84C87814, 0x8CC70208, 0x90BEFFFA, 0xA4506CEB, 0xBEF9A3F7, 0xC67178F2] ∧
  ∀ (j : BitVec 6) s, ∃ t t1 t2, exec (.rndStep j) s = .next t ∧
    t1 = s.v[7] + bigS1 s.v[4] + ch s.v[4] s.v[5] s.v[6] + romK[j.toNat]'j.isLt + s.w[j.toNat]'j.isLt ∧
    t2 = bigS0 s.v[0] + maj s.v[0] s.v[1] s.v[2] ∧
    t.v[7] = s.v[6] ∧ t.v[6] = s.v[5] ∧ t.v[5] = s.v[4] ∧ t.v[4] = s.v[3] + t1 ∧
    t.v[3] = s.v[2] ∧ t.v[2] = s.v[1] ∧ t.v[1] = s.v[0] ∧ t.v[0] = t1 + t2 ∧
    t = { s with v := t.v }

/-- R113: BLK.ADD. -/
def Obligations.BlkAddAddsWordwise : Prop :=
  DueIn .bAdd .blkAdd 0x280 ∧
  ∀ s, ∃ t, exec .blkAdd s = .next t ∧
    (∀ k (hk : k < 8), t.h[k].toNat = (s.h[k].toNat + s.v[k].toNat) % 2 ^ 32) ∧ t = { s with h := t.h }

/-- R116: one round is a bijection on the eight-word state, whatever `K[j]` and `W[j]` are. -/
def Obligations.RoundIsBijective : Prop :=
  ∀ k w : Word, Function.Bijective (roundStep k w)

/-- R11: the right rotation, as arithmetic and bit by bit. -/
def Obligations.RotationByArithmeticAndByBit : Prop :=
  ∀ (x : Word) (n : Nat), 1 ≤ n → n ≤ 31 →
    (rotr x n).toNat = (x.toNat / 2 ^ n + x.toNat % 2 ^ n * 2 ^ (32 - n)) % 2 ^ 32 ∧
    ∀ i, i < 32 → (rotr x n).getLsbD i = x.getLsbD ((i + n) % 32)

/-- R13: words and bytes, most significant byte first, and back. -/
def Obligations.BigEndianConversions : Prop :=
  (∀ b0 b1 b2 b3 : Byte, (be32 b0 b1 b2 b3).toNat =
    b0.toNat * 2 ^ 24 + b1.toNat * 2 ^ 16 + b2.toNat * 2 ^ 8 + b3.toNat) ∧
  (∀ (x : Word) k, k < 4 → (byteOf k x).toNat = x.toNat / 2 ^ (24 - 8 * k) % 2 ^ 8) ∧
  (∀ x : Word, x = be32 (byteOf 0 x) (byteOf 1 x) (byteOf 2 x) (byteOf 3 x)) ∧
  (∀ (n : BitVec 64) k, k < 8 → (lenByte k n).toNat = n.toNat / 2 ^ (56 - 8 * k) % 2 ^ 8)

/-- R105 and R107: choice takes the bit of `f` where `e` has a 1 and of `g` where it has a 0; majority is 1 exactly when
at least two of the three bits are. -/
def Obligations.ChoiceAndMajorityByBit : Prop :=
  ∀ (x y z : Word) (i : Nat), i < 32 →
    (ch x y z).getLsbD i = (if x.getLsbD i = true then y.getLsbD i else z.getLsbD i) ∧
    ((maj x y z).getLsbD i = true ↔ 2 ≤ (x.getLsbD i).toNat + (y.getLsbD i).toNat + (z.getLsbD i).toNat)

/-- R96, R97, R104, R106: the four rotation networks bit by bit; the shifted term gives no bit at the top. -/
def Obligations.RotationNetworksByBit : Prop :=
  ∀ (x : Word) (i : Nat), i < 32 →
    (sigma0 x).getLsbD i =
      (x.getLsbD ((i + 7) % 32) ^^ x.getLsbD ((i + 18) % 32) ^^ (decide (i + 3 < 32) && x.getLsbD (i + 3))) ∧
    (sigma1 x).getLsbD i =
      (x.getLsbD ((i + 17) % 32) ^^ x.getLsbD ((i + 19) % 32) ^^ (decide (i + 10 < 32) && x.getLsbD (i + 10))) ∧
    (bigS1 x).getLsbD i = (x.getLsbD ((i + 6) % 32) ^^ x.getLsbD ((i + 11) % 32) ^^ x.getLsbD ((i + 25) % 32)) ∧
    (bigS0 x).getLsbD i = (x.getLsbD ((i + 2) % 32) ^^ x.getLsbD ((i + 13) % 32) ^^ x.getLsbD ((i + 22) % 32))

/-! ## The serializer -/

/-- R126: SER. -/
def Obligations.SerWritesDigest : Prop :=
  DueIn .serial .ser 0x2C0 ∧
  ∀ s, ∃ t, exec .ser s = .next t ∧
    (∀ k m (hk : k < 8), m < 4 → (t.dg.read? (4 * k + m)).map BitVec.toNat =
      some (s.h[k].toNat / 2 ^ (24 - 8 * m) % 256)) ∧
    (∀ a, 32 ≤ a → t.dg.read? a = s.dg.read? a) ∧
    t = { s with dg := t.dg }

/-! ## START, the fault, reset -/

/-- R120 and R121: START, every case. -/
def Obligations.StartAcceptsChecksOrDrops : Prop :=
  encode .start = .hc 0x00000001 ∧ (∀ s, hostAct (.writeCtrl 0x00000001) s = exec .start s) ∧
  ∀ s,
    ((s.phase = .idle ∨ s.phase = .done) →
      (2 ^ 61 ≤ s.len.toNat → exec .start s = .next { s with cause := .lenOverflow, phase := .fault }) ∧
      (s.len.toNat < 2 ^ 61 → s.msgSize < s.len.toNat →
        exec .start s = .next { s with cause := .lenCapacity, phase := .fault }) ∧
      (s.len.toNat ≤ s.msgSize → exec .start s = .next { s with cause := .none, phase := .pCopy })) ∧
    ((s.phase.busy = true ∨ s.phase = .fault) → exec .start s = .next s)

/-- R143: the fault entry writes `CAUSE` and `PHASE`, nothing else, and STATUS then reads `0x14` or `0x24`. -/
def Obligations.LengthFaultEntry : Prop :=
  ∀ s : State, (s.phase = .idle ∨ s.phase = .done) → s.msgSize < s.len.toNat →
    ∃ t c, exec .start s = .next t ∧ t = { s with cause := c, phase := .fault } ∧
      ((2 ^ 61 ≤ s.len.toNat ∧ c = .lenOverflow ∧ t.status = 0x00000014) ∨
        (s.len.toNat < 2 ^ 61 ∧ c = .lenCapacity ∧ t.status = 0x00000024))

/-- R142: a step enters FAULT only by an accepted START whose length is out of the domain, and then by the fault entry of
the right cause. (The stray position of BLK.ADD past the last block, log 7, is no position of the hardware.) -/
def Obligations.OnlyStartRaisesLengthFault : Prop :=
  ∀ s t, s.phase ≠ .fault → t.phase = .fault → step s = .next t →
    (s.phase = .bAdd → s.blk.toNat < s.nblk.toNat) →
    ∃ rest, s.turns = Turn.host (.writeCtrl 1) :: rest ∧ (s.phase = .idle ∨ s.phase = .done) ∧
      s.msgSize < s.len.toNat ∧
      ∃ c, t = { s with turns := rest, cause := c, phase := .fault } ∧
        (2 ^ 61 ≤ s.len.toNat → c = .lenOverflow) ∧ (s.len.toNat < 2 ^ 61 → c = .lenCapacity)

/-- R145 with R149: in FAULT every step keeps FAULT and its cause, unless RESET is asserted in it. -/
def Obligations.FaultLeftOnlyByReset : Prop :=
  ∀ s t, s.phase = .fault → step s = .next t → (∀ u ∈ s.turns.head?, u.reset = false) →
    t.phase = .fault ∧ t.cause = s.cause ∧ t.status = s.status

/-- R158 and R146: RESET, whatever else would happen in that turn, leaves IDLE with no fault recorded, STATUS zero, no
byte written and (log 9) no register recorded as written; the parameter stays. Of the registers it leaves unspecified nothing is said. -/
def Obligations.ResetInputWins : Prop :=
  ∀ s ev, ∃ t, takeTurn ⟨true, ev⟩ s = .next t ∧ t.phase = .idle ∧ t.cause = .none ∧ t.status = 0x00000000 ∧
    (∀ a, t.msg.read? a = none ∧ t.pad.read? a = none ∧ t.dg.read? a = none) ∧ t.written = Written.nothing ∧
    t.cfg = s.cfg

/-- R42: what the spec gives for reset: IDLE, no fault, STATUS zero, no byte written and no register (log 9). -/
def Obligations.ResetStateAsSpecified : Prop :=
  State.reset.phase = .idle ∧ State.reset.cause = .none ∧ State.reset.status = 0x00000000 ∧
    State.reset.msg = [] ∧ State.reset.pad = [] ∧ State.reset.dg = [] ∧ State.reset.written = Written.nothing

/-! ## STATUS and the host's accesses -/

/-- R31: the fields of STATUS. -/
def Obligations.StatusFields : Prop :=
  ∀ s : State, s.status.toNat =
    (if 1 ≤ s.phase.code.toNat ∧ s.phase.code.toNat ≤ 11 then 1 else 0) + (if s.phase.code.toNat = 12 then 2 else 0) +
      (if s.phase.code.toNat = 13 then 4 else 0) + 16 * s.cause.code.toNat

/-- R31: STATUS takes only five values in the states the hardware can be in. -/
def Obligations.StatusTakesFiveValues : Prop :=
  ∀ s : State, s.Inv → s.status = 0x00000000 ∨ s.status = 0x00000001 ∨ s.status = 0x00000002 ∨ s.status = 0x00000014 ∨
    s.status = 0x00000024

/-- R131: while BUSY a host write to `LEN`, to `MSG` or a START changes nothing and is not remembered; a write of 0 to
`CTRL` and a write to `STATUS` change nothing in any phase (R74, R31). -/
def Obligations.HostWritesDropped : Prop :=
  (∀ s, s.phase.busy = true →
    (∀ n, hostAct (.writeLen n) s = .next s) ∧
    (∀ a b, a < s.msgSize → hostAct (.writeMsg a b) s = .next s) ∧
    hostAct (.writeCtrl 1) s = .next s) ∧
  (∀ s, hostAct (.writeCtrl 0) s = .next s ∧ ∀ v, hostAct (.writeStatus v) s = .next s)

/-- R130: in IDLE, DONE and FAULT a host write is performed, any 64-bit length included; a later read returns it; an
access to `MSG` at `LMAX` or above addresses nothing and is refused. That it is refused while BUSY too, where R131 would
drop the write, is the model's reading (log 11). The record of writes is the model's (log 9). -/
def Obligations.HostWritesPerformed : Prop :=
  (∀ s, s.phase = .idle ∨ s.phase = .done ∨ s.phase = .fault →
    (∀ n, ∃ t, hostAct (.writeLen n) s = .next t ∧ t = { s with len := n, written := { s.written with len := true } } ∧
      hostAct .readLen t = .next { t with reply := some (.len n) }) ∧
    (∀ a b, a < s.msgSize → ∃ t, hostAct (.writeMsg a b) s = .next t ∧
      t.msg.read? a = some b ∧ (∀ c, c ≠ a → t.msg.read? c = s.msg.read? c) ∧ t = { s with msg := t.msg } ∧
      hostAct (.readMsg a) t = .next { t with reply := some (.msg b) })) ∧
  (∀ s a b, s.msgSize ≤ a → hostAct (.writeMsg a b) s = .refused .noSuchAddress ∧
    hostAct (.readMsg a) s = .refused .noSuchAddress)

/-- R128, R129, R130, R40: STATUS reads in every phase; `DG[t]` reads in DONE only and is refused in every other phase;
`LEN` and `MSG[t]` read their contents outside BUSY and are refused while BUSY (log 12). No read changes anything but the
host's last reply (log 6). That `LEN` and a byte of `MSG` nobody has written read at all, and not as a refusal, is the model's
choice (log 25, log 3). -/
def Obligations.HostReads : Prop :=
  ∀ s, hostAct .readStatus s = .next { s with reply := some (.status s.status) } ∧
    (∀ a, a < 32 →
      (s.phase = .done → hostAct (.readDg a) s = .next { s with reply := some (.dg (s.dgByte a)) }) ∧
      (s.phase ≠ .done → hostAct (.readDg a) s = .refused .digestNotReady)) ∧
    (∀ a, 32 ≤ a → hostAct (.readDg a) s = .refused .noSuchAddress) ∧
    (s.phase = .idle ∨ s.phase = .done ∨ s.phase = .fault →
      hostAct .readLen s = .next { s with reply := some (.len s.len) } ∧
      ∀ a, a < s.msgSize → hostAct (.readMsg a) s = .next { s with reply := some (.msg (s.msgByte a)) }) ∧
    (s.phase.busy = true → hostAct .readLen s = .refused .readWhileBusy ∧
      ∀ a, a < s.msgSize → hostAct (.readMsg a) s = .refused .readWhileBusy)

/-- R74 and R30: every `CTRL` value but 0 and 1 is refused by name, in every phase, and so is a read of `CTRL`. -/
def Obligations.ReservedControlRefused : Prop :=
  ∀ s, (∀ v : BitVec 32, v ≠ 0 → v ≠ 1 → hostAct (.writeCtrl v) s = .refused (.reservedControlValue v)) ∧
    hostAct .readCtrl s = .refused .readOfControl

/-! ## The whole machine -/

/-- R20, the column 'written by': which phase's step may change which register or memory. The host's registers and
memories, the cause and the parameter no sequencer step changes (R29, R33), nor the model's own fields `epoch` and `reply`; the
record `written` (log 9) it does change. -/
def Obligations.SequencerWritesOnly : Prop :=
  ∀ s t, s.turns = [] → step s = .next t →
    (t.h ≠ s.h → s.phase = .hInit ∨ s.phase = .bAdd) ∧
    (t.v ≠ s.v → s.phase = .rCopy ∨ s.phase = .rStep) ∧
    (t.w ≠ s.w → s.phase = .bLoad ∨ s.phase = .sExp) ∧
    (t.pad ≠ s.pad ∨ t.plen ≠ s.plen → s.phase = .pCopy ∨ s.phase = .pMark ∨ s.phase = .pZero ∨ s.phase = .pLen) ∧
    (t.nblk ≠ s.nblk → s.phase = .pLen) ∧
    (t.dg ≠ s.dg → s.phase = .serial) ∧
    t.len = s.len ∧ t.msg = s.msg ∧ t.cause = s.cause ∧ t.cfg = s.cfg ∧ t.epoch = s.epoch ∧ t.reply = s.reply

/-- R35, R127: "Immutable once produced": outside a reset and outside operations run by hand, only the step of SER changes
`DG`; no host action does, START included. -/
def Obligations.DigestChangesOnlyBySer : Prop :=
  ∀ s t, step s = .next t → s.nextTurn.reset = false → s.nextTurn.byHand = false → t.dg ≠ s.dg →
    s.phase = .serial ∧ s.nextTurn = Turn.sequencer

/-- R7, R38: `LMAX` is a parameter: no step of either agent, and no reset, changes it. -/
def Obligations.ParameterNeverChanges : Prop :=
  ∀ s t, step s = .next t → t.cfg = s.cfg

/-- Every step, of either agent, by hand or reset, keeps every memory in canonical form. -/
def Obligations.MemoriesStayCanonical : Prop :=
  ∀ s t, s.msg.wf → s.pad.wf → s.dg.wf → step s = .next t → t.msg.wf ∧ t.pad.wf ∧ t.dg.wf

/-- The reset state meets the invariant. -/
def Obligations.InvariantAtReset : Prop := State.reset.Inv

/-- Every step of the machine keeps the invariant (R26, R28, R32, R87, R165). -/
def Obligations.InvariantKeptByStep : Prop :=
  ∀ s t : State, s.Inv → step s = .next t → t.Inv

/-- R119, R125, R142: a busy sequencer always has its step; no operation of the sequencer's own path stops. -/
def Obligations.BusySequencerAlwaysSteps : Prop :=
  ∀ s : State, s.Inv → s.phase.busy = true → s.turns = [] → ∃ t, step s = .next t

/-- R131, R119, R162: no host action taken while BUSY, other than by RESET, changes anything but the turns still to come
and the host's last reply: the running invocation goes on as if it had not happened. -/
def Obligations.HostCannotDisturbInvocation : Prop :=
  ∀ s t a rest, s.phase.busy = true → s.turns = Turn.host a :: rest → step s = .next t →
    t = { s with turns := rest, reply := t.reply }

/-- R134: one pass over a block, BLK.LOAD to BLK.ADD, is `compress`, and the sequencer goes to the next block or, after
the last, to SER. -/
def Obligations.BlockPassIsCompress : Prop :=
  ∀ s : State, s.turns = [] → s.phase = .bLoad → s.blk.toNat < s.nblk.toNat → 64 * s.nblk.toNat ≤ s.padSize →
    ∃ t : State, Host.Core.run core 115 s = .next t ∧
      t.h = compress s.h ((List.range 64).map fun k => s.padByte (64 * s.blk.toNat + k)) ∧
      (s.blk.toNat + 1 < s.nblk.toNat → t.phase = .bLoad ∧ t.blk = s.blk + 1) ∧
      (s.blk.toNat + 1 = s.nblk.toNat → t.phase = .serial ∧ t.blk = s.blk) ∧
      t = { s with phase := t.phase, blk := t.blk, j := 63, h := t.h, v := t.v, w := t.w, written := t.written }

/-- R77, R122, R123, R125: from an accepted START the operations due, one a step, are exactly those of the
pseudo-operation DIGEST over `(L + 8) div 64 + 1` blocks, and after them the engine is in DONE. -/
def Obligations.InvocationTrace : Prop :=
  ∀ s : State, s.turns = [] → s.phase = .pCopy → s.len.toNat ≤ s.msgSize →
    (digestOps ((s.len.toNat + 8) / 64 + 1)).length = 6 + 115 * ((s.len.toNat + 8) / 64 + 1) ∧
    (∀ k, k < 6 + 115 * ((s.len.toNat + 8) / 64 + 1) → ∃ t : State, Host.Core.run core k s = .next t ∧
      t.phase.busy = true ∧ t.position.operation = (digestOps ((s.len.toNat + 8) / 64 + 1))[k]?) ∧
    ∃ t : State, Host.Core.run core (6 + 115 * ((s.len.toNat + 8) / 64 + 1)) s = .next t ∧ t.phase = .done

/-- R135: from IDLE or DONE, whatever the engine held before, a START with `LEN = L <= LMAX` ends, after `6 + 115 * N`
steps of the sequencer, in DONE with `DG[0..31] = digest(M)`; `MSG` and `LEN` are as they were. -/
def Obligations.InvocationComputesDigest : Prop :=
  ∀ s : State, s.phase = .idle ∨ s.phase = .done → s.len.toNat ≤ s.msgSize →
    ∃ t : State, Host.Core.run core (1 + (6 + 115 * ((s.len.toNat + 8) / 64 + 1)))
        { s with turns := [Turn.host (.writeCtrl 1)] } = .next t ∧
      t.phase = .done ∧ t.status = 0x00000002 ∧
      (List.range 32).map t.dg.read? = (digest (s.message s.len.toNat)).map some ∧
      t.msg = s.msg ∧ t.len = s.len ∧ t.cfg = s.cfg

/-- R165, location by location: in every state the hardware can be in, each register and byte of its own that the operation
due, or the choice of the next position, reads has been written since the last reset. (`LEN` and `MSG` are the host's to write,
R163. That PAD.ZERO is not among the readers of `LEN` is the model's choice between R90 and R20's table, log 24.) -/
def Obligations.SequencerReadsOnlyWritten : Prop :=
  ∀ s : State, s.Inv →
    (s.phase = .pMark ∨ s.phase = .pZero ∨ s.phase = .pLen → s.written.plen = true) ∧
    (s.phase = .bLoad → s.written.blk = true ∧ ∀ k, k < 64 → (s.pad.read? (64 * s.blk.toNat + k)).isSome = true) ∧
    (s.phase = .sExp → s.written.j = true ∧ ∀ k (hk : k < 64), k < s.j.toNat → s.written.w[k] = true) ∧
    (s.phase = .rCopy → s.written.h = true) ∧
    (s.phase = .rStep → s.written.j = true ∧ s.written.v = true ∧ s.written.w[s.j.toNat]'s.j.isLt = true) ∧
    (s.phase = .bAdd → s.written.h = true ∧ s.written.v = true ∧ s.written.blk = true ∧ s.written.nblk = true) ∧
    (s.phase = .serial → s.written.h = true) ∧
    (∀ i, s.position.named = some i → i ≠ .padCopy → i ≠ .padLen → ¬ s.ReadsUnwritten i)

/-- The record of what has been written (log 9) misses no write of a register, one that stores the value already held
included. In the state that a step without RESET leaves are recorded: every register that changed or was recorded before; every
register of the 'Writes' list of the operation performed, in order or by hand (R73); `BLK` and `J` where R122's row writes them
(past the last block, where it has no row, only if they change: log 7); and `LEN` after a host write that is performed (R130).
Of `MSG`, `PAD` and `DG` the memories themselves are the record. -/
def Obligations.WritesAreRecorded : Prop :=
  ∀ s t, step s = .next t → s.nextTurn.reset = false →
    (t.blk ≠ s.blk ∨ s.written.blk = true → t.written.blk = true) ∧
    (t.j ≠ s.j ∨ s.written.j = true → t.written.j = true) ∧
    (t.plen ≠ s.plen ∨ s.written.plen = true → t.written.plen = true) ∧
    (t.nblk ≠ s.nblk ∨ s.written.nblk = true → t.written.nblk = true) ∧
    (t.len ≠ s.len ∨ s.written.len = true → t.written.len = true) ∧
    (t.h ≠ s.h ∨ s.written.h = true → t.written.h = true) ∧
    (t.v ≠ s.v ∨ s.written.v = true → t.written.v = true) ∧
    (∀ k (hk : k < 64), t.w[k] ≠ s.w[k] ∨ s.written.w[k] = true → t.written.w[k] = true) ∧
    (∀ i, s.Performs i → t.written.HoldsWritesOf i) ∧
    (s.SequencerActs →
      (s.phase = .hInit ∨ (s.phase = .bAdd ∧ s.blk.toNat + 1 < s.nblk.toNat) → t.written.blk = true) ∧
      (s.phase = .bLoad ∨ s.phase = .rCopy ∨ ((s.phase = .sExp ∨ s.phase = .rStep) ∧ s.j.toNat < 63) →
        t.written.j = true)) ∧
    (∀ n, s.nextTurn = Turn.host (.writeLen n) → s.phase.busy = false → t.written.len = true)

/-- The record (log 9) holds nothing that was not written: a register becomes recorded only in a step that performs an
operation whose rule writes it, in the sequencer's position write (`BLK`, `J`), or in a host write (`LEN`). -/
def Obligations.OnlyWritesAreRecorded : Prop :=
  ∀ s t, step s = .next t →
    (t.written.blk = true → s.written.blk = true ∨ (s.SequencerActs ∧ (s.phase = .hInit ∨ s.phase = .bAdd))) ∧
    (t.written.j = true → s.written.j = true ∨ (s.SequencerActs ∧
      (s.phase = .bLoad ∨ s.phase = .sExp ∨ s.phase = .rCopy ∨ s.phase = .rStep ∨ s.phase = .bAdd))) ∧
    (t.written.plen = true → s.written.plen = true ∨ ∃ i, s.Performs i ∧
      (i = .padCopy ∨ i = .padMark ∨ i = .padZero ∨ i = .padLen)) ∧
    (t.written.nblk = true → s.written.nblk = true ∨ s.Performs .padLen) ∧
    (t.written.len = true → s.written.len = true ∨ ∃ n, s.nextTurn = Turn.host (.writeLen n)) ∧
    (t.written.h = true → s.written.h = true ∨ s.Performs .hInit ∨ s.Performs .blkAdd) ∧
    (t.written.v = true → s.written.v = true ∨ s.Performs .rndCopy ∨ ∃ j, s.Performs (.rndStep j)) ∧
    (∀ k (hk : k < 64), t.written.w[k] = true → s.written.w[k] = true ∨ (k < 16 ∧ s.Performs .blkLoad) ∨
      s.Performs (.schExp (BitVec.ofNat 6 k)))

/-- R73, by the model's record of writes (log 9): an operation performed out of the sequencer's order has its rule's meaning on
whatever state it finds, the position as it stands (log 21), but a read of a location that nothing has written since the last
reset is a fault. The word that is due, fed by hand, is the sequencer's step. The model's choice, no rule's plain word: what
PAD.ZERO reads is `PLEN` alone, as R90 lists, so that out of order it completes whether or not `LEN`, which R20's table has it
read too, is written (log 24). -/
def Obligations.HandRunReadsOnlyWritten : Prop :=
  (∀ (s : State) w, s.position.opWord = some w → takeTurn (Turn.feed w) s = takeTurn Turn.sequencer s) ∧
  ∀ (s : State) w i, decodeOpw w = .ok i → s.position.opWord ≠ some w →
    (s.ReadsUnwritten i → ∃ f, takeTurn (Turn.feed w) s = .fault f) ∧
    (∀ t, exec i s = .next t → s.ReadsUnwritten i → takeTurn (Turn.feed w) s = .fault .unwrittenRead) ∧
    (∀ t, exec i s = .next t → ¬ s.ReadsUnwritten i → ∃ m, takeTurn (Turn.feed w) s = .next { t with written := m })

/-- R73, U7: right after reset, in `State.reset` and after the RESET input, no operation performed by hand but H.INIT, which
reads constants only, completes: none computes on a register nobody has written. That the fault in `State.reset` is
`unwrittenRead`, and not one of an address that does not exist, is the model's choice: it rests on the zeros named for `LEN`,
`PLEN` and `BLK` (log 1) and on which stop is reported first (log 9). -/
def Obligations.HandRunAfterReset : Prop :=
  ∀ (w : BitVec 10) i, decodeOpw w = .ok i →
    (i ≠ .hInit → takeTurn (Turn.feed w) State.reset = .fault .unwrittenRead) ∧
    (i ≠ .hInit → ∀ ev s t, takeTurn ⟨true, ev⟩ s = .next t → ∃ f, takeTurn (Turn.feed w) t = .fault f) ∧
    (i = .hInit → ∀ s, ∃ t, takeTurn (Turn.feed w) s = .next t ∧ t.h = romIV)

/-- 95_test_vectors.md section 9 (log 21): from an accepted START, the words of DIGEST over `(L + 8) div 64 + 1` blocks fed one
by one by hand take the engine through every step the sequencer would take, to the same end state. -/
def Obligations.FedTraceFollowsSequencer : Prop :=
  ∀ s : State, s.turns = [] → s.phase = .pCopy → s.len.toNat ≤ s.msgSize →
    ∃ t : State, t.phase = .done ∧ t.turns = [] ∧
      Host.Core.run core (6 + 115 * ((s.len.toNat + 8) / 64 + 1)) s = .next t ∧
      Host.Core.run core (6 + 115 * ((s.len.toNat + 8) / 64 + 1))
        { s with turns := ((digestOps ((s.len.toNat + 8) / 64 + 1)).filterMap operationWord?).map Turn.feed } = .next t

/-- Where an operation run by hand stops (R33, R34, R72, R73; log 10): an address beyond `MSG` or `PAD` does not exist,
and SCH.EXP below 16 is no operation. -/
def Obligations.HandRunStops : Prop :=
  (∀ s, s.msgSize < s.len.toNat → exec .padCopy s = .fault .noMsgAddress) ∧
  (∀ s, s.padSize ≤ s.plen.toNat → exec .padMark s = .fault .noPadAddress) ∧
  (∀ s z, z < 64 → (s.plen.toNat + z) % 64 = 56 → z ≠ 0 → s.padSize < s.plen.toNat + z →
    exec .padZero s = .fault .noPadAddress) ∧
  (∀ s, s.padSize < s.plen.toNat + 8 → exec .padLen s = .fault .noPadAddress) ∧
  (∀ s, s.padSize < 64 * s.blk.toNat + 64 → exec .blkLoad s = .fault .noPadAddress) ∧
  (∀ s (j : BitVec 6), j.toNat < 16 → exec (.schExp j) s = .refused (.illegalOperation .scheduleIndexBelow16))
end

