-- ==== Sys2Proof/Laws/Memory.lean ====
section
/-! SUPPORT. The laws of a memory: a read after a store, the canonical form, the bound of the addresses listed. -/

namespace Sys2Proof.Machine

theorem Memory.read?_append (m n : Memory) (a : Nat) :
    Memory.read? (m ++ n) a = (Memory.read? m a).or (Memory.read? n a) := by
  induction m with
  | nil => simp [Memory.read?]
  | cons c m ih =>
    by_cases h : c.1 = a
    · simp [Memory.read?, h]
    · simp [Memory.read?, h, ih]

theorem Memory.read?_filter_of_true (m : Memory) (a : Nat) (p : Nat → Bool) (h : p a = true) :
    Memory.read? (m.filter fun c => p c.1) a = Memory.read? m a := by
  induction m with
  | nil => rfl
  | cons c m ih =>
    by_cases hc : c.1 = a
    · subst hc; simp [Memory.read?, h]
    · by_cases hp : p c.1 = true <;> simp [Memory.read?, hp, hc, ih]

theorem Memory.read?_filter_of_false (m : Memory) (a : Nat) (p : Nat → Bool) (h : p a = false) :
    Memory.read? (m.filter fun c => p c.1) a = none := by
  induction m with
  | nil => rfl
  | cons c m ih =>
    by_cases hp : p c.1 = true
    · have hc : c.1 ≠ a := fun e => by simp [e, h] at hp
      simp [Memory.read?, hp, hc, ih]
    · simp [hp, ih]

theorem Memory.read?_run_of_lt (base : Nat) (bs : List Byte) (a : Nat) (h : a < base) :
    Memory.read? (Memory.run base bs) a = none := by
  induction bs generalizing base with
  | nil => rfl
  | cons b bs ih => simp [Memory.run, Memory.read?, show base ≠ a by omega, ih (base + 1) (by omega)]

/-- A run of bytes read at an offset from its base. -/
theorem Memory.read?_run (base : Nat) (bs : List Byte) (k : Nat) :
    Memory.read? (Memory.run base bs) (base + k) = bs[k]? := by
  induction bs generalizing base k with
  | nil => simp [Memory.run, Memory.read?]
  | cons b bs ih =>
    cases k with
    | zero => simp [Memory.run, Memory.read?]
    | succ k =>
      have := ih (base + 1) k
      rw [show base + 1 + k = base + (k + 1) by omega] at this
      simp [Memory.run, Memory.read?, this]

/-- A read after a store: inside the run the byte stored there, elsewhere the byte from before. -/
theorem Memory.read?_store (m : Memory) (base : Nat) (bs : List Byte) (a : Nat) :
    (m.store base bs).read? a = if base ≤ a ∧ a < base + bs.length then bs[a - base]? else m.read? a := by
  unfold Memory.store
  rw [Memory.read?_append, Memory.read?_append]
  by_cases h1 : a < base
  · rw [Memory.read?_filter_of_true m a (fun x => decide (x < base)) (by simpa using h1),
      Memory.read?_run_of_lt _ _ _ h1,
      Memory.read?_filter_of_false m a (fun x => decide (base + bs.length ≤ x)) (by simp; omega)]
    simp [show ¬ (base ≤ a ∧ a < base + bs.length) by omega]
  · rw [Memory.read?_filter_of_false m a (fun x => decide (x < base)) (by simpa using h1)]
    obtain ⟨k, rfl⟩ : ∃ k, a = base + k := ⟨a - base, by omega⟩
    rw [Memory.read?_run]
    by_cases h2 : k < bs.length
    · rw [Memory.read?_filter_of_false m _ (fun x => decide (base + bs.length ≤ x)) (by simp; omega)]
      simp [h2]
    · rw [Memory.read?_filter_of_true m _ (fun x => decide (base + bs.length ≤ x)) (by simp; omega)]
      simp [h2]

theorem Memory.read?_store_inside (m : Memory) (base : Nat) (bs : List Byte) (k : Nat) (h : k < bs.length) :
    (m.store base bs).read? (base + k) = some bs[k] := by
  rw [Memory.read?_store, if_pos (by omega)]; simp [h]

theorem Memory.read?_store_outside (m : Memory) (base : Nat) (bs : List Byte) (a : Nat)
    (h : a < base ∨ base + bs.length ≤ a) : (m.store base bs).read? a = m.read? a := by
  rw [Memory.read?_store, if_neg (by omega)]

theorem Memory.mem_run {base : Nat} {bs : List Byte} {c : Host.Cell} (h : c ∈ Memory.run base bs) :
    base ≤ c.1 ∧ c.1 < base + bs.length := by
  induction bs generalizing base with
  | nil => simp [Memory.run] at h
  | cons b bs ih =>
    rcases List.mem_cons.1 h with rfl | h
    · simp
    · have := ih h; simp; omega

theorem Memory.run_wf (base : Nat) (bs : List Byte) : (Memory.run base bs).wf := by
  induction bs generalizing base with
  | nil => simp [Memory.run, Memory.wf]
  | cons b bs ih =>
    refine List.pairwise_cons.2 ⟨fun c hc => ?_, ih (base + 1)⟩
    have := Memory.mem_run hc
    simp; omega

/-- A store keeps the canonical form. -/
theorem Memory.store_wf {m : Memory} (h : m.wf) (base : Nat) (bs : List Byte) : (m.store base bs).wf := by
  unfold Memory.store Memory.wf
  refine List.pairwise_append.2 ⟨List.pairwise_append.2 ⟨h.filter _, Memory.run_wf base bs, ?_⟩, h.filter _, ?_⟩
  · intro c hc d hd
    have := Memory.mem_run hd
    simp at hc; omega
  · intro c hc d hd
    simp at hd
    rcases List.mem_append.1 hc with hc | hc
    · simp at hc; omega
    · have := Memory.mem_run hc; omega

/-- A store inside a space lists no address beyond it. -/
theorem Memory.store_below {m : Memory} {size : Nat} (h : ∀ c ∈ m, c.1 < size) {base : Nat} {bs : List Byte}
    (hs : inside base bs.length size = true) : ∀ c ∈ m.store base bs, c.1 < size := by
  intro c hc
  unfold Memory.store at hc
  simp only [inside, decide_eq_true_eq] at hs
  rcases List.mem_append.1 hc with hc | hc
  · rcases List.mem_append.1 hc with hc | hc
    · exact h c (List.mem_filter.1 hc).1
    · have := Memory.mem_run hc; omega
  · exact h c (List.mem_filter.1 hc).1

/-- What a store leaves written. -/
theorem Memory.isSome_store (m : Memory) (base : Nat) (bs : List Byte) (a : Nat) :
    ((m.store base bs).read? a).isSome = (decide (base ≤ a ∧ a < base + bs.length) || (m.read? a).isSome) := by
  rw [Memory.read?_store]
  by_cases h : base ≤ a ∧ a < base + bs.length
  · simp [h, show a - base < bs.length by omega]
  · simp [h]

theorem Memory.byteAt_of_read? {m : Memory} {a : Nat} {b : Byte} (h : m.read? a = some b) (e : Nat) (sp : Space) :
    m.byteAt e sp a = b := by simp [Memory.byteAt, h]

/-- A byte read after a store. -/
theorem Memory.byteAt_store (m : Memory) (base : Nat) (bs : List Byte) (e : Nat) (sp : Space) (a : Nat) :
    (m.store base bs).byteAt e sp a =
      if base ≤ a ∧ a < base + bs.length then bs.getD (a - base) 0 else m.byteAt e sp a := by
  unfold Memory.byteAt
  rw [Memory.read?_store]
  by_cases h : base ≤ a ∧ a < base + bs.length
  · simp [h, show a - base < bs.length by omega]
  · simp [h]

end Sys2Proof.Machine
end

