-- ==== Sys2Proof/Laws/State.lean ====
section
/-! SUPPORT. What each named update of the state does to each field, so that no proof unfolds a record update. -/

namespace Sys2Proof.Machine

@[simp] theorem State.atPosition_phase (s : State) (p : Position) : (s.atPosition p).phase = p.phase := rfl
@[simp] theorem State.atPosition_blk (s : State) (p : Position) : (s.atPosition p).blk = p.blk := rfl
@[simp] theorem State.atPosition_j (s : State) (p : Position) : (s.atPosition p).j = p.j := rfl
@[simp] theorem State.atPosition_plen (s : State) (p : Position) : (s.atPosition p).plen = s.plen := rfl
@[simp] theorem State.atPosition_nblk (s : State) (p : Position) : (s.atPosition p).nblk = s.nblk := rfl
@[simp] theorem State.atPosition_len (s : State) (p : Position) : (s.atPosition p).len = s.len := rfl
@[simp] theorem State.atPosition_cause (s : State) (p : Position) : (s.atPosition p).cause = s.cause := rfl
@[simp] theorem State.atPosition_h (s : State) (p : Position) : (s.atPosition p).h = s.h := rfl
@[simp] theorem State.atPosition_v (s : State) (p : Position) : (s.atPosition p).v = s.v := rfl
@[simp] theorem State.atPosition_w (s : State) (p : Position) : (s.atPosition p).w = s.w := rfl
@[simp] theorem State.atPosition_msg (s : State) (p : Position) : (s.atPosition p).msg = s.msg := rfl
@[simp] theorem State.atPosition_pad (s : State) (p : Position) : (s.atPosition p).pad = s.pad := rfl
@[simp] theorem State.atPosition_dg (s : State) (p : Position) : (s.atPosition p).dg = s.dg := rfl
@[simp] theorem State.atPosition_cfg (s : State) (p : Position) : (s.atPosition p).cfg = s.cfg := rfl
@[simp] theorem State.atPosition_epoch (s : State) (p : Position) : (s.atPosition p).epoch = s.epoch := rfl
@[simp] theorem State.atPosition_turns (s : State) (p : Position) : (s.atPosition p).turns = s.turns := rfl
@[simp] theorem State.atPosition_reply (s : State) (p : Position) : (s.atPosition p).reply = s.reply := rfl
@[simp] theorem State.atPosition_written (s : State) (p : Position) : (s.atPosition p).written = s.written := rfl

@[simp] theorem State.raiseLengthFault_phase (s : State) (c : Cause) : (s.raiseLengthFault c).phase = .fault := rfl
@[simp] theorem State.raiseLengthFault_blk (s : State) (c : Cause) : (s.raiseLengthFault c).blk = s.blk := rfl
@[simp] theorem State.raiseLengthFault_j (s : State) (c : Cause) : (s.raiseLengthFault c).j = s.j := rfl
@[simp] theorem State.raiseLengthFault_plen (s : State) (c : Cause) : (s.raiseLengthFault c).plen = s.plen := rfl
@[simp] theorem State.raiseLengthFault_nblk (s : State) (c : Cause) : (s.raiseLengthFault c).nblk = s.nblk := rfl
@[simp] theorem State.raiseLengthFault_len (s : State) (c : Cause) : (s.raiseLengthFault c).len = s.len := rfl
@[simp] theorem State.raiseLengthFault_cause (s : State) (c : Cause) : (s.raiseLengthFault c).cause = c := rfl
@[simp] theorem State.raiseLengthFault_h (s : State) (c : Cause) : (s.raiseLengthFault c).h = s.h := rfl
@[simp] theorem State.raiseLengthFault_v (s : State) (c : Cause) : (s.raiseLengthFault c).v = s.v := rfl
@[simp] theorem State.raiseLengthFault_w (s : State) (c : Cause) : (s.raiseLengthFault c).w = s.w := rfl
@[simp] theorem State.raiseLengthFault_msg (s : State) (c : Cause) : (s.raiseLengthFault c).msg = s.msg := rfl
@[simp] theorem State.raiseLengthFault_pad (s : State) (c : Cause) : (s.raiseLengthFault c).pad = s.pad := rfl
@[simp] theorem State.raiseLengthFault_dg (s : State) (c : Cause) : (s.raiseLengthFault c).dg = s.dg := rfl
@[simp] theorem State.raiseLengthFault_cfg (s : State) (c : Cause) : (s.raiseLengthFault c).cfg = s.cfg := rfl
@[simp] theorem State.raiseLengthFault_epoch (s : State) (c : Cause) : (s.raiseLengthFault c).epoch = s.epoch := rfl
@[simp] theorem State.raiseLengthFault_turns (s : State) (c : Cause) : (s.raiseLengthFault c).turns = s.turns := rfl
@[simp] theorem State.raiseLengthFault_reply (s : State) (c : Cause) : (s.raiseLengthFault c).reply = s.reply := rfl
@[simp] theorem State.raiseLengthFault_written (s : State) (c : Cause) : (s.raiseLengthFault c).written = s.written := rfl

@[simp] theorem State.advance_phase (s : State) : s.advance.phase = (s.position.next s.nblk).phase := rfl
@[simp] theorem State.advance_blk (s : State) : s.advance.blk = (s.position.next s.nblk).blk := rfl
@[simp] theorem State.advance_j (s : State) : s.advance.j = (s.position.next s.nblk).j := rfl
@[simp] theorem State.advance_plen (s : State) : s.advance.plen = s.plen := rfl
@[simp] theorem State.advance_nblk (s : State) : s.advance.nblk = s.nblk := rfl
@[simp] theorem State.advance_len (s : State) : s.advance.len = s.len := rfl
@[simp] theorem State.advance_cause (s : State) : s.advance.cause = s.cause := rfl
@[simp] theorem State.advance_h (s : State) : s.advance.h = s.h := rfl
@[simp] theorem State.advance_v (s : State) : s.advance.v = s.v := rfl
@[simp] theorem State.advance_w (s : State) : s.advance.w = s.w := rfl
@[simp] theorem State.advance_msg (s : State) : s.advance.msg = s.msg := rfl
@[simp] theorem State.advance_pad (s : State) : s.advance.pad = s.pad := rfl
@[simp] theorem State.advance_dg (s : State) : s.advance.dg = s.dg := rfl
@[simp] theorem State.advance_cfg (s : State) : s.advance.cfg = s.cfg := rfl
@[simp] theorem State.advance_epoch (s : State) : s.advance.epoch = s.epoch := rfl
@[simp] theorem State.advance_turns (s : State) : s.advance.turns = s.turns := rfl
@[simp] theorem State.advance_reply (s : State) : s.advance.reply = s.reply := rfl
@[simp] theorem State.advance_written (s : State) :
    s.advance.written = s.written.byPositionWrite s.position (s.position.next s.nblk) := rfl

@[simp] theorem State.recordOperation_phase (s : State) (i : Instr) : (s.recordOperation i).phase = s.phase := rfl
@[simp] theorem State.recordOperation_blk (s : State) (i : Instr) : (s.recordOperation i).blk = s.blk := rfl
@[simp] theorem State.recordOperation_j (s : State) (i : Instr) : (s.recordOperation i).j = s.j := rfl
@[simp] theorem State.recordOperation_plen (s : State) (i : Instr) : (s.recordOperation i).plen = s.plen := rfl
@[simp] theorem State.recordOperation_nblk (s : State) (i : Instr) : (s.recordOperation i).nblk = s.nblk := rfl
@[simp] theorem State.recordOperation_len (s : State) (i : Instr) : (s.recordOperation i).len = s.len := rfl
@[simp] theorem State.recordOperation_cause (s : State) (i : Instr) : (s.recordOperation i).cause = s.cause := rfl
@[simp] theorem State.recordOperation_h (s : State) (i : Instr) : (s.recordOperation i).h = s.h := rfl
@[simp] theorem State.recordOperation_v (s : State) (i : Instr) : (s.recordOperation i).v = s.v := rfl
@[simp] theorem State.recordOperation_w (s : State) (i : Instr) : (s.recordOperation i).w = s.w := rfl
@[simp] theorem State.recordOperation_msg (s : State) (i : Instr) : (s.recordOperation i).msg = s.msg := rfl
@[simp] theorem State.recordOperation_pad (s : State) (i : Instr) : (s.recordOperation i).pad = s.pad := rfl
@[simp] theorem State.recordOperation_dg (s : State) (i : Instr) : (s.recordOperation i).dg = s.dg := rfl
@[simp] theorem State.recordOperation_cfg (s : State) (i : Instr) : (s.recordOperation i).cfg = s.cfg := rfl
@[simp] theorem State.recordOperation_epoch (s : State) (i : Instr) : (s.recordOperation i).epoch = s.epoch := rfl
@[simp] theorem State.recordOperation_turns (s : State) (i : Instr) : (s.recordOperation i).turns = s.turns := rfl
@[simp] theorem State.recordOperation_reply (s : State) (i : Instr) : (s.recordOperation i).reply = s.reply := rfl
@[simp] theorem State.recordOperation_written (s : State) (i : Instr) :
    (s.recordOperation i).written = s.written.byOperation i := rfl
@[simp] theorem State.recordOperation_position (s : State) (i : Instr) : (s.recordOperation i).position = s.position := rfl

/-- How a turn of the sequencer ends: the next position, and the record of what the operation and the position write wrote. -/
theorem State.advance_recordOperation (s : State) (i : Instr) :
    (s.recordOperation i).advance = { s.atPosition (s.position.next s.nblk) with
      written := (s.written.byOperation i).byPositionWrite s.position (s.position.next s.nblk) } := rfl

/-- What a position write does to the record. -/
@[simp] theorem Written.byPositionWrite_blk (m : Written) (p q : Position) :
    (m.byPositionWrite p q).blk = (m.blk || decide (p.phase = .hInit ∨ q.blk ≠ p.blk)) := rfl
@[simp] theorem Written.byPositionWrite_j (m : Written) (p q : Position) :
    (m.byPositionWrite p q).j = (m.j || decide (p.phase = .bLoad ∨ p.phase = .rCopy ∨ q.j ≠ p.j)) := rfl
@[simp] theorem Written.byPositionWrite_plen (m : Written) (p q : Position) : (m.byPositionWrite p q).plen = m.plen := rfl
@[simp] theorem Written.byPositionWrite_nblk (m : Written) (p q : Position) : (m.byPositionWrite p q).nblk = m.nblk := rfl
@[simp] theorem Written.byPositionWrite_len (m : Written) (p q : Position) : (m.byPositionWrite p q).len = m.len := rfl
@[simp] theorem Written.byPositionWrite_h (m : Written) (p q : Position) : (m.byPositionWrite p q).h = m.h := rfl
@[simp] theorem Written.byPositionWrite_v (m : Written) (p q : Position) : (m.byPositionWrite p q).v = m.v := rfl
@[simp] theorem Written.byPositionWrite_w (m : Written) (p q : Position) : (m.byPositionWrite p q).w = m.w := rfl

@[simp] theorem State.resetInput_phase (s : State) : s.resetInput.phase = .idle := rfl
@[simp] theorem State.resetInput_blk (s : State) : s.resetInput.blk = (Config.afterReset (s.epoch + 1)).blk := rfl
@[simp] theorem State.resetInput_j (s : State) : s.resetInput.j = (Config.afterReset (s.epoch + 1)).j := rfl
@[simp] theorem State.resetInput_plen (s : State) : s.resetInput.plen = (Config.afterReset (s.epoch + 1)).plen := rfl
@[simp] theorem State.resetInput_nblk (s : State) : s.resetInput.nblk = (Config.afterReset (s.epoch + 1)).nblk := rfl
@[simp] theorem State.resetInput_len (s : State) : s.resetInput.len = (Config.afterReset (s.epoch + 1)).len := rfl
@[simp] theorem State.resetInput_cause (s : State) : s.resetInput.cause = .none := rfl
@[simp] theorem State.resetInput_h (s : State) : s.resetInput.h = (Config.afterReset (s.epoch + 1)).h := rfl
@[simp] theorem State.resetInput_v (s : State) : s.resetInput.v = (Config.afterReset (s.epoch + 1)).v := rfl
@[simp] theorem State.resetInput_w (s : State) : s.resetInput.w = (Config.afterReset (s.epoch + 1)).w := rfl
@[simp] theorem State.resetInput_msg (s : State) : s.resetInput.msg = [] := rfl
@[simp] theorem State.resetInput_pad (s : State) : s.resetInput.pad = [] := rfl
@[simp] theorem State.resetInput_dg (s : State) : s.resetInput.dg = [] := rfl
@[simp] theorem State.resetInput_cfg (s : State) : s.resetInput.cfg = s.cfg := rfl
@[simp] theorem State.resetInput_epoch (s : State) : s.resetInput.epoch = s.epoch + 1 := rfl
@[simp] theorem State.resetInput_turns (s : State) : s.resetInput.turns = s.turns := rfl
@[simp] theorem State.resetInput_reply (s : State) : s.resetInput.reply = s.reply := rfl
@[simp] theorem State.resetInput_written (s : State) : s.resetInput.written = Written.nothing := rfl

@[simp] theorem State.dropTurn_phase (s : State) : s.dropTurn.phase = s.phase := rfl
@[simp] theorem State.dropTurn_blk (s : State) : s.dropTurn.blk = s.blk := rfl
@[simp] theorem State.dropTurn_j (s : State) : s.dropTurn.j = s.j := rfl
@[simp] theorem State.dropTurn_plen (s : State) : s.dropTurn.plen = s.plen := rfl
@[simp] theorem State.dropTurn_nblk (s : State) : s.dropTurn.nblk = s.nblk := rfl
@[simp] theorem State.dropTurn_len (s : State) : s.dropTurn.len = s.len := rfl
@[simp] theorem State.dropTurn_cause (s : State) : s.dropTurn.cause = s.cause := rfl
@[simp] theorem State.dropTurn_h (s : State) : s.dropTurn.h = s.h := rfl
@[simp] theorem State.dropTurn_v (s : State) : s.dropTurn.v = s.v := rfl
@[simp] theorem State.dropTurn_w (s : State) : s.dropTurn.w = s.w := rfl
@[simp] theorem State.dropTurn_msg (s : State) : s.dropTurn.msg = s.msg := rfl
@[simp] theorem State.dropTurn_pad (s : State) : s.dropTurn.pad = s.pad := rfl
@[simp] theorem State.dropTurn_dg (s : State) : s.dropTurn.dg = s.dg := rfl
@[simp] theorem State.dropTurn_cfg (s : State) : s.dropTurn.cfg = s.cfg := rfl
@[simp] theorem State.dropTurn_epoch (s : State) : s.dropTurn.epoch = s.epoch := rfl
@[simp] theorem State.dropTurn_turns (s : State) : s.dropTurn.turns = s.turns.tail := rfl
@[simp] theorem State.dropTurn_reply (s : State) : s.dropTurn.reply = s.reply := rfl
@[simp] theorem State.dropTurn_written (s : State) : s.dropTurn.written = s.written := rfl
@[simp] theorem State.dropTurn_position (s : State) : s.dropTurn.position = s.position := rfl
@[simp] theorem State.dropTurn_msgSize (s : State) : s.dropTurn.msgSize = s.msgSize := rfl
@[simp] theorem State.dropTurn_padSize (s : State) : s.dropTurn.padSize = s.padSize := rfl

theorem State.dropTurn_of_nil {s : State} (h : s.turns = []) : s.dropTurn = s := by
  cases s; subst h; rfl

theorem State.dropTurn_of_cons {s : State} {u : Turn} {rest : List Turn} (h : s.turns = u :: rest) :
    s.dropTurn = { s with turns := rest } := by
  simp [State.dropTurn, h]

@[simp] theorem State.position_phase (s : State) : s.position.phase = s.phase := rfl
@[simp] theorem State.position_blk (s : State) : s.position.blk = s.blk := rfl
@[simp] theorem State.position_j (s : State) : s.position.j = s.j := rfl

@[simp] theorem State.atPosition_position (s : State) : s.atPosition s.position = s := rfl

@[simp] theorem State.position_atPosition (s : State) (p : Position) : (s.atPosition p).position = p := rfl

end Sys2Proof.Machine
end

