-- ==== Sys2Proof/Laws/Ops.lean ====
section
/-! SUPPORT. What the shared operations do: sizes and bounds, the padder's append, the bytes of a word, of the length
field and of a digest. -/

namespace Sys2Proof.Machine

/-- When an operation that checks its addresses answers a next state. -/
theorem next_if_iff {c : Bool} {u t : State} {stop : Result} (h : stop ≠ .next t) :
    (if c = true then .next u else stop) = Host.Outcome.next t ↔ c = true ∧ t = u := by
  cases c
  · simp [h]
  · simp [eq_comm]

theorem inside_iff {base n size : Nat} : inside base n size = true ↔ n = 0 ∨ base + n ≤ size := by simp [inside]

theorem State.msgSize_lt (s : State) : s.msgSize < 2 ^ 61 := s.cfg.lmax.isLt

theorem State.padSize_eq (s : State) : s.padSize = 64 * ((s.msgSize + 8) / 64 + 1) := rfl

theorem State.msgSize_add_le_padSize (s : State) : s.msgSize + 9 ≤ s.padSize := by rw [State.padSize_eq]; omega

theorem State.padSize_le (s : State) : s.padSize ≤ 2 ^ 61 + 64 := by
  have := s.msgSize_lt; rw [State.padSize_eq]; omega

theorem State.status_eq (s : State) : s.status = statusWord s.phase s.cause := rfl

theorem Phase.busy_false_iff {p : Phase} : p.busy = false ↔ p = .idle ∨ p = .done ∨ p = .fault := by
  cases p <;> decide

/-- The operation word of a phase whose operation takes no index (R69). -/
theorem Position.opWord_of_unindexed {p : Phase} (h : p ≠ .sExp ∧ p ≠ .rStep) (hb : p.busy = true) (blk : BitVec 56)
    (j : BitVec 6) : (Position.mk p blk j).opWord = some (p.code ++ 0#6) := by
  simp [Position.opWord, hb, Position.index, h]

theorem zeroCount_lt (n : Nat) : zeroCount n < 64 := by unfold zeroCount; omega

theorem zeroCount_spec (n : Nat) : (n + zeroCount n) % 64 = 56 := by unfold zeroCount; omega

/-- The padder's append: when it completes, and what state it leaves. -/
theorem State.appendPad_eq_next {s t : State} {bytes : List Byte} :
    s.appendPad bytes = .next t ↔ inside s.plen.toNat bytes.length s.padSize = true ∧
      t = { s with pad := s.pad.store s.plen.toNat bytes, plen := s.plen + BitVec.ofNat 62 bytes.length } := by
  exact next_if_iff (by simp)

theorem State.appendPad_of_inside {s : State} {bytes : List Byte}
    (h : inside s.plen.toNat bytes.length s.padSize = true) :
    s.appendPad bytes =
      .next { s with pad := s.pad.store s.plen.toNat bytes, plen := s.plen + BitVec.ofNat 62 bytes.length } :=
  if_pos h

theorem State.appendPad_of_outside {s : State} {bytes : List Byte}
    (h : inside s.plen.toNat bytes.length s.padSize = false) : s.appendPad bytes = .fault .noPadAddress := by
  unfold State.appendPad; simp [h]

/-- Inside `PAD` the 62 bits of `PLEN` hold the new length exactly (R28). -/
theorem State.plen_add {s : State} {n : Nat} (h : inside s.plen.toNat n s.padSize = true) :
    (s.plen + BitVec.ofNat 62 n).toNat = s.plen.toNat + n := by
  have := s.padSize_le
  have := s.plen.isLt
  rw [inside_iff] at h
  rw [BitVec.toNat_add, BitVec.toNat_ofNat]
  omega

@[simp] theorem State.message_length (s : State) (n : Nat) : (s.message n).length = n := by simp [State.message]

theorem State.message_getElem? (s : State) {n a : Nat} (h : a < n) : (s.message n)[a]? = some (s.msgByte a) := by
  simp [State.message, h]

@[simp] theorem lengthBytes_length (n : BitVec 64) : (lengthBytes n).length = 8 := rfl

theorem lengthBytes_getElem? (n : BitVec 64) {k : Nat} (h : k < 8) : (lengthBytes n)[k]? = some (lenByte k n) := by
  interval_cases k <;> rfl

theorem byteOf_toNat (k : Nat) (x : Word) : (byteOf k x).toNat = x.toNat / 2 ^ (24 - 8 * k) % 256 := by
  simp [byteOf, Nat.shiftRight_eq_div_pow]

theorem lenByte_toNat (k : Nat) (n : BitVec 64) : (lenByte k n).toNat = n.toNat / 2 ^ (56 - 8 * k) % 256 := by
  simp [lenByte, Nat.shiftRight_eq_div_pow]

/-- Byte `k` of the length field, for every value of `LEN` (R67): the bits that 64 bits drop reach no byte. -/
theorem lenByte_bitLength (len : BitVec 64) {k : Nat} (hk : k < 8) :
    (lenByte k (bitLength len)).toNat = 8 * len.toNat / 2 ^ (56 - 8 * k) % 256 := by
  rw [lenByte_toNat, bitLength, BitVec.toNat_mul, show (8 : BitVec 64).toNat = 8 from rfl]
  interval_cases k <;> omega

theorem be32_toNat (b0 b1 b2 b3 : Byte) :
    (be32 b0 b1 b2 b3).toNat = b0.toNat * 2 ^ 24 + b1.toNat * 2 ^ 16 + b2.toNat * 2 ^ 8 + b3.toNat := by
  have h1 := b1.isLt
  have h2 := b2.isLt
  have h3 := b3.isLt
  simp only [be32, BitVec.toNat_append]
  rw [← Nat.shiftLeft_add_eq_or_of_lt h1, ← Nat.shiftLeft_add_eq_or_of_lt h2, ← Nat.shiftLeft_add_eq_or_of_lt h3]
  simp only [Nat.shiftLeft_eq]
  omega

@[simp] theorem digestBytes_length (h : Vector Word 8) : (digestBytes h).length = 32 := by
  obtain ⟨⟨l⟩, hl⟩ := h
  match l, hl with
  | [_, _, _, _, _, _, _, _], _ => rfl

/-- Byte `4k + m` of a digest is byte `m` of hash word `k` (R68). -/
theorem digestBytes_getElem? (h : Vector Word 8) {k m : Nat} (hk : k < 8) (hm : m < 4) :
    (digestBytes h)[4 * k + m]? = some (byteOf m h[k]) := by
  obtain ⟨⟨l⟩, hl⟩ := h
  match l, hl with
  | [_, _, _, _, _, _, _, _], _ => interval_cases k <;> interval_cases m <;> rfl

theorem addWords_getElem (x y : Vector Word 8) {k : Nat} (hk : k < 8) : (addWords x y)[k] = x[k] + y[k] := by
  simp [addWords]

end Sys2Proof.Machine
end

