-- ==== Sys2Proof/Laws/Exec.lean ====
section
/-! SUPPORT. One lemma per instruction: when its meaning answers a next state, and which one. -/

namespace Sys2Proof.Machine

theorem execPadCopy_eq_next {s t : State} : execPadCopy s = .next t ↔ inside 0 s.len.toNat s.msgSize = true ∧
    t = { s with pad := s.pad.store 0 (s.message s.len.toNat), plen := s.len.setWidth 62 } := by
  exact next_if_iff (by simp)

theorem execPadMark_eq_next {s t : State} : execPadMark s = .next t ↔ inside s.plen.toNat 1 s.padSize = true ∧
    t = { s with pad := s.pad.store s.plen.toNat [0x80], plen := s.plen + 1 } :=
  State.appendPad_eq_next

theorem execPadZero_eq_next {s t : State} : execPadZero s = .next t ↔
    inside s.plen.toNat (zeroCount s.plen.toNat) s.padSize = true ∧
      t = { s with pad := s.pad.store s.plen.toNat (List.replicate (zeroCount s.plen.toNat) 0),
                   plen := s.plen + BitVec.ofNat 62 (zeroCount s.plen.toNat) } := by
  unfold execPadZero; rw [State.appendPad_eq_next, List.length_replicate]

theorem execPadLen_eq_next {s t : State} : execPadLen s = .next t ↔ inside s.plen.toNat 8 s.padSize = true ∧
    t = { s with pad := s.pad.store s.plen.toNat (lengthBytes (bitLength s.len)), plen := s.plen + 8,
                 nblk := BitVec.ofNat 56 ((s.plen.toNat + 8) / 64) } :=
  State.appendPad_eq_next

theorem execBlkLoad_eq_next {s t : State} : execBlkLoad s = .next t ↔
    inside (64 * s.blk.toNat) 64 s.padSize = true ∧
      t = { s with w := Vector.ofFn fun k : Fin 64 =>
              if k.val < 16 then s.padWord (64 * s.blk.toNat) k else s.w[k] } := by
  exact next_if_iff (by simp)

theorem execSchExp_eq_next {j : BitVec 6} {s t : State} : execSchExp j s = .next t ↔ 16 ≤ j.toNat ∧
    t = { s with w := s.w.set j.toNat (scheduleWord (s.scheduled (j - 16)) (s.scheduled (j - 15)) (s.scheduled (j - 7))
            (s.scheduled (j - 2))) j.isLt } := by
  unfold execSchExp
  by_cases h : 16 ≤ j.toNat
  · rw [if_pos h]; simp [h, eq_comm]
  · rw [if_neg h]; simp [h]

theorem execHInit_eq_next {s t : State} : execHInit s = .next t ↔ t = { s with h := romIV } := by
  simp [execHInit, eq_comm]

theorem execRndCopy_eq_next {s t : State} : execRndCopy s = .next t ↔ t = { s with v := s.h } := by
  simp [execRndCopy, eq_comm]

theorem execRndStep_eq_next {j : BitVec 6} {s t : State} : execRndStep j s = .next t ↔
    t = { s with v := roundStep (romK[j.toNat]'j.isLt) (s.scheduled j) s.v } := by
  simp [execRndStep, eq_comm]

theorem execBlkAdd_eq_next {s t : State} : execBlkAdd s = .next t ↔ t = { s with h := addWords s.h s.v } := by
  simp [execBlkAdd, eq_comm]

theorem execSer_eq_next {s t : State} : execSer s = .next t ↔ t = { s with dg := s.dg.store 0 (digestBytes s.h) } := by
  simp [execSer, eq_comm]

/-- START has four outcomes (R120): a fault entry for either cause, acceptance, or nothing at all. -/
theorem execStart_cases (s : State) :
    ((s.phase = .idle ∨ s.phase = .done) ∧ 2 ^ 61 ≤ s.len.toNat ∧
      execStart s = .next (s.raiseLengthFault .lenOverflow)) ∨
    ((s.phase = .idle ∨ s.phase = .done) ∧ s.len.toNat < 2 ^ 61 ∧ s.msgSize < s.len.toNat ∧
      execStart s = .next (s.raiseLengthFault .lenCapacity)) ∨
    ((s.phase = .idle ∨ s.phase = .done) ∧ s.len.toNat ≤ s.msgSize ∧
      execStart s = .next { s with cause := .none, phase := .pCopy }) ∨
    (¬(s.phase = .idle ∨ s.phase = .done) ∧ execStart s = .next s) := by
  have := s.msgSize_lt
  unfold execStart
  by_cases h1 : s.phase = .idle ∨ s.phase = .done
  · by_cases h2 : 2 ^ 61 ≤ s.len.toNat
    · exact .inl ⟨h1, h2, by rw [if_pos h1, if_pos h2]⟩
    · by_cases h3 : s.msgSize < s.len.toNat
      · exact .inr (.inl ⟨h1, by omega, h3, by rw [if_pos h1, if_neg h2, if_pos h3]⟩)
      · exact .inr (.inr (.inl ⟨h1, by omega, by rw [if_pos h1, if_neg h2, if_neg h3]⟩))
  · exact .inr (.inr (.inr ⟨h1, if_neg h1⟩))

/-- What no sequencer operation touches: the position, the host's registers and memories, the fault cause, and the
model's own fields. -/
theorem exec_frame {i : Instr} {s t : State} (hi : i ≠ .start) (h : exec i s = .next t) :
    t.position = s.position ∧ t.len = s.len ∧ t.msg = s.msg ∧ t.cause = s.cause ∧ t.cfg = s.cfg ∧ t.epoch = s.epoch ∧
      t.turns = s.turns ∧ t.reply = s.reply ∧ t.written = s.written := by
  cases i with
  | padCopy => obtain ⟨-, rfl⟩ := execPadCopy_eq_next.1 h; simp [State.position]
  | padMark => obtain ⟨-, rfl⟩ := execPadMark_eq_next.1 h; simp [State.position]
  | padZero => obtain ⟨-, rfl⟩ := execPadZero_eq_next.1 h; simp [State.position]
  | padLen => obtain ⟨-, rfl⟩ := execPadLen_eq_next.1 h; simp [State.position]
  | hInit => obtain rfl := execHInit_eq_next.1 h; simp [State.position]
  | blkLoad => obtain ⟨-, rfl⟩ := execBlkLoad_eq_next.1 h; simp [State.position]
  | schExp j => obtain ⟨-, rfl⟩ := execSchExp_eq_next.1 h; simp [State.position]
  | rndCopy => obtain rfl := execRndCopy_eq_next.1 h; simp [State.position]
  | rndStep j => obtain rfl := execRndStep_eq_next.1 h; simp [State.position]
  | blkAdd => obtain rfl := execBlkAdd_eq_next.1 h; simp [State.position]
  | ser => obtain rfl := execSer_eq_next.1 h; simp [State.position]
  | start => exact absurd rfl hi

/-- Only PAD.LEN writes `NBLK` (R20, R28). -/
theorem exec_nblk {i : Instr} {s t : State} (hi : i ≠ .start) (hl : i ≠ .padLen) (h : exec i s = .next t) :
    t.nblk = s.nblk := by
  cases i with
  | padCopy => obtain ⟨-, rfl⟩ := execPadCopy_eq_next.1 h; rfl
  | padMark => obtain ⟨-, rfl⟩ := execPadMark_eq_next.1 h; rfl
  | padZero => obtain ⟨-, rfl⟩ := execPadZero_eq_next.1 h; rfl
  | padLen => exact absurd rfl hl
  | hInit => obtain rfl := execHInit_eq_next.1 h; rfl
  | blkLoad => obtain ⟨-, rfl⟩ := execBlkLoad_eq_next.1 h; rfl
  | schExp j => obtain ⟨-, rfl⟩ := execSchExp_eq_next.1 h; rfl
  | rndCopy => obtain rfl := execRndCopy_eq_next.1 h; rfl
  | rndStep j => obtain rfl := execRndStep_eq_next.1 h; rfl
  | blkAdd => obtain rfl := execBlkAdd_eq_next.1 h; rfl
  | ser => obtain rfl := execSer_eq_next.1 h; rfl
  | start => exact absurd rfl hi

/-- No operation breaks the canonical form of a memory. -/
theorem exec_keeps_wf {i : Instr} {s t : State} (hi : i ≠ .start) (h : exec i s = .next t) (h1 : s.msg.wf)
    (h2 : s.pad.wf) (h3 : s.dg.wf) : t.msg.wf ∧ t.pad.wf ∧ t.dg.wf := by
  refine ⟨by rw [(exec_frame hi h).2.2.1]; exact h1, ?_⟩
  cases i with
  | padCopy => obtain ⟨-, rfl⟩ := execPadCopy_eq_next.1 h; exact ⟨Memory.store_wf h2 _ _, h3⟩
  | padMark => obtain ⟨-, rfl⟩ := execPadMark_eq_next.1 h; exact ⟨Memory.store_wf h2 _ _, h3⟩
  | padZero => obtain ⟨-, rfl⟩ := execPadZero_eq_next.1 h; exact ⟨Memory.store_wf h2 _ _, h3⟩
  | padLen => obtain ⟨-, rfl⟩ := execPadLen_eq_next.1 h; exact ⟨Memory.store_wf h2 _ _, h3⟩
  | hInit => obtain rfl := execHInit_eq_next.1 h; exact ⟨h2, h3⟩
  | blkLoad => obtain ⟨-, rfl⟩ := execBlkLoad_eq_next.1 h; exact ⟨h2, h3⟩
  | schExp j => obtain ⟨-, rfl⟩ := execSchExp_eq_next.1 h; exact ⟨h2, h3⟩
  | rndCopy => obtain rfl := execRndCopy_eq_next.1 h; exact ⟨h2, h3⟩
  | rndStep j => obtain rfl := execRndStep_eq_next.1 h; exact ⟨h2, h3⟩
  | blkAdd => obtain rfl := execBlkAdd_eq_next.1 h; exact ⟨h2, h3⟩
  | ser => obtain rfl := execSer_eq_next.1 h; exact ⟨h2, Memory.store_wf h3 _ _⟩
  | start => exact absurd rfl hi

/-- Every register an operation changes is recorded, and nothing recorded is forgotten (log 9). -/
theorem exec_recorded {s u : State} {i : Instr} (hs : i ≠ .start) (he : exec i s = .next u) :
    (u.plen ≠ s.plen ∨ s.written.plen = true → (s.written.byOperation i).plen = true) ∧
    (u.nblk ≠ s.nblk ∨ s.written.nblk = true → (s.written.byOperation i).nblk = true) ∧
    (u.h ≠ s.h ∨ s.written.h = true → (s.written.byOperation i).h = true) ∧
    (u.v ≠ s.v ∨ s.written.v = true → (s.written.byOperation i).v = true) ∧
    (∀ k (hk : k < 64), u.w[k] ≠ s.w[k] ∨ s.written.w[k] = true → (s.written.byOperation i).w[k] = true) ∧
    (s.written.blk = true → (s.written.byOperation i).blk = true) ∧
    (s.written.j = true → (s.written.byOperation i).j = true) ∧
    (s.written.len = true → (s.written.byOperation i).len = true) := by
  cases i with
  | padCopy => obtain ⟨-, rfl⟩ := execPadCopy_eq_next.1 he; simp [Written.byOperation]
  | padMark => obtain ⟨-, rfl⟩ := execPadMark_eq_next.1 he; simp [Written.byOperation]
  | padZero => obtain ⟨-, rfl⟩ := execPadZero_eq_next.1 he; simp [Written.byOperation]
  | padLen => obtain ⟨-, rfl⟩ := execPadLen_eq_next.1 he; simp [Written.byOperation]
  | hInit => obtain rfl := execHInit_eq_next.1 he; simp [Written.byOperation]
  | blkLoad =>
    obtain ⟨-, rfl⟩ := execBlkLoad_eq_next.1 he; simp [Written.byOperation]
    intro k hk h
    by_cases h16 : k < 16
    · exact .inl h16
    · simp [h16] at h; exact .inr h
  | schExp j =>
    obtain ⟨-, rfl⟩ := execSchExp_eq_next.1 he; simp [Written.byOperation]
    intro k hk h
    rw [Vector.getElem_set] at h ⊢
    by_cases hj : j.toNat = k
    · rw [if_pos hj]
    · rw [if_neg hj] at h ⊢; simpa using h
  | rndCopy => obtain rfl := execRndCopy_eq_next.1 he; simp [Written.byOperation]
  | rndStep j => obtain rfl := execRndStep_eq_next.1 he; simp [Written.byOperation]
  | blkAdd => obtain rfl := execBlkAdd_eq_next.1 he; simp [Written.byOperation]
  | ser => obtain rfl := execSer_eq_next.1 he; simp [Written.byOperation]
  | start => exact absurd rfl hs

/-- What an operation records: nothing but the registers of its rule (log 9). -/
theorem Written.byOperation_only {m : Written} {i : Instr} :
    (m.byOperation i).blk = m.blk ∧ (m.byOperation i).j = m.j ∧ (m.byOperation i).len = m.len ∧
    ((m.byOperation i).plen = true → m.plen = true ∨ (i = .padCopy ∨ i = .padMark ∨ i = .padZero ∨ i = .padLen)) ∧
    ((m.byOperation i).nblk = true → m.nblk = true ∨ i = .padLen) ∧
    ((m.byOperation i).h = true → m.h = true ∨ i = .hInit ∨ i = .blkAdd) ∧
    ((m.byOperation i).v = true → m.v = true ∨ i = .rndCopy ∨ ∃ j, i = .rndStep j) ∧
    (∀ k (hk : k < 64), (m.byOperation i).w[k] = true →
      m.w[k] = true ∨ (k < 16 ∧ i = .blkLoad) ∨ i = .schExp (BitVec.ofNat 6 k)) := by
  cases i with
  | blkLoad => simp [Written.byOperation]; intro k hk h; exact h.symm
  | schExp j =>
    simp [Written.byOperation]
    intro k hk h
    rw [Vector.getElem_set] at h
    by_cases hj : j.toNat = k
    · right; subst hj; simp
    · rw [if_neg hj] at h; exact .inl h
  | _ => simp [Written.byOperation]

end Sys2Proof.Machine
end

