-- ==== Sys2Proof/Laws/PerInstr.lean ====
section
/-! SUPPORT. What holds of every instruction, one lemma per constructor: the decoder turns away exactly the words of the
ill-formed ones, and does so by the name of R72's second class. -/

namespace Sys2Proof.Laws.EncodeReject

/-- The word of `i` is refused, as SCH.EXP below 16, exactly if `i` is ill formed (R71, R72). -/
def Statement (i : Instr) : Prop :=
  decode (encode i) = .error .scheduleIndexBelow16 ↔ i.wellFormed = false

theorem padCopy : Statement .padCopy := by unfold Statement; decide
theorem padMark : Statement .padMark := by unfold Statement; decide
theorem padZero : Statement .padZero := by unfold Statement; decide
theorem padLen : Statement .padLen := by unfold Statement; decide
theorem hInit : Statement .hInit := by unfold Statement; decide
theorem blkLoad : Statement .blkLoad := by unfold Statement; decide
theorem schExp : ∀ j, Statement (.schExp j) := by unfold Statement; decide
theorem rndCopy : Statement .rndCopy := by unfold Statement; decide
theorem rndStep : ∀ j, Statement (.rndStep j) := by unfold Statement; decide
theorem blkAdd : Statement .blkAdd := by unfold Statement; decide
theorem ser : Statement .ser := by unfold Statement; decide
theorem start : Statement .start := by unfold Statement; decide

end Sys2Proof.Laws.EncodeReject
end

