-- ==== Sys2Proof/Laws/Step.lean ====
section
/-! SUPPORT. What a step does: fetching and decoding the operation a phase names, and the sequencer's turn. -/

namespace Sys2Proof.Machine

theorem opcField_append (a : BitVec 4) (j : BitVec 6) : opcField (a ++ j) = a := by
  apply BitVec.eq_of_getLsbD_eq
  intro i hi
  have := BitVec.getLsbD_append (x := a) (y := j) (i := 6 + i)
  simpa [opcField, hi] using this

theorem idxField_append (a : BitVec 4) (j : BitVec 6) : idxField (a ++ j) = j := by
  apply BitVec.eq_of_getLsbD_eq
  intro i hi
  have := BitVec.getLsbD_append (x := a) (y := j) (i := i)
  simpa [idxField, hi] using this

/-- The word of a busy position decodes to the operation its phase names. -/
theorem Position.decode_opWord {p : Position} {i : Instr} (h : p.named = some i) (hj : p.phase = .sExp → 16 ≤ p.j.toNat) :
    ∃ w, p.opWord = some w ∧ decodeOpw w = .ok i := by
  obtain ⟨ph, blk, j⟩ := p
  refine ⟨ph.code ++ (Position.mk ph blk j).index, ?_, ?_⟩
  · cases ph <;> first | rfl | simp [Position.named] at h
  · unfold decodeOpw unindexed
    rw [opcField_append, idxField_append]
    cases ph <;> simp [Position.named, Position.index, Phase.code] at h hj ⊢ <;> first | exact h | (rw [if_pos hj, h])

/-- The sequencer's turn at a position whose operation is `i`. -/
theorem sequencerTurn_of_named {s : State} {i : Instr} (h : s.position.named = some i)
    (hj : s.phase = .sExp → 16 ≤ s.j.toNat) :
    sequencerTurn s = match exec i s with
      | .next t => .next (t.recordOperation i).advance
      | .fault f => .fault f
      | .refused r => .refused r := by
  obtain ⟨w, hw, hd⟩ := Position.decode_opWord h hj
  simp only [sequencerTurn, hw, hd] <;> cases exec i s <;> rfl

theorem sequencerTurn_of_exec {s t : State} {i : Instr} (h : s.position.named = some i)
    (hj : s.phase = .sExp → 16 ≤ s.j.toNat) (he : exec i s = .next t) : sequencerTurn s = .next (t.recordOperation i).advance := by
  rw [sequencerTurn_of_named h hj, he]

theorem Position.opWord_of_resting {p : Position} (h : p.named = none) : p.opWord = none := by
  obtain ⟨ph, blk, j⟩ := p
  cases ph <;> first | rfl | simp [Position.named] at h

theorem sequencerTurn_of_resting {s : State} (h : s.position.named = none) : sequencerTurn s = .next s := by
  simp only [sequencerTurn, Position.opWord_of_resting h]

/-- An index below 16 in phase S_EXP makes an illegal word. -/
theorem sequencerTurn_of_illegal {s : State} (h : s.phase = .sExp) (hj : s.j.toNat < 16) :
    sequencerTurn s = .refused (.illegalOperation .scheduleIndexBelow16) := by
  have hw : s.position.opWord = some (7#4 ++ s.j) := by
    simp [Position.opWord, Position.index, State.position, h, Phase.busy, Phase.code]
  have hd : decodeOpw (7#4 ++ s.j) = .error .scheduleIndexBelow16 := by
    unfold decodeOpw
    rw [opcField_append, idxField_append]
    simp; omega
  simp only [sequencerTurn, hw, hd]

/-- Everything a sequencer's turn that answers a next state can have done: nothing in a resting phase, else the operation
the phase names, followed by the position write, both recorded. -/
theorem sequencerTurn_cases {s t : State} (h : sequencerTurn s = .next t) :
    (s.position.named = none ∧ t = s) ∨
    ∃ i u, s.position.named = some i ∧ (s.phase = .sExp → 16 ≤ s.j.toNat) ∧ exec i s = .next u ∧
      t = (u.recordOperation i).advance := by
  by_cases hj : s.phase = .sExp ∧ s.j.toNat < 16
  · rw [sequencerTurn_of_illegal hj.1 hj.2] at h; cases h
  · have hj' : s.phase = .sExp → 16 ≤ s.j.toNat := fun e => by
      by_contra hlt; exact hj ⟨e, by omega⟩
    cases hn : s.position.named with
    | none =>
      rw [sequencerTurn_of_resting hn] at h
      exact .inl ⟨rfl, by injection h with h; exact h.symm⟩
    | some i =>
      rw [sequencerTurn_of_named hn hj'] at h
      cases he : exec i s with
      | next u => rw [he] at h; injection h with h; exact .inr ⟨i, u, rfl, hj', he, h.symm⟩
      | fault f => rw [he] at h; cases h
      | refused r => rw [he] at h; cases h

/-- The operation of a phase, read off the phase. -/
theorem named_of_phase {s : State} {p : Phase} (h : s.phase = p) : s.position.named = (Position.mk p s.blk s.j).named := by
  subst h; rfl

/-- The next position is FAULT only from FAULT, the stray position of BLK.ADD (log 7) aside. -/
theorem Position.next_phase_ne_fault {p : Position} {nblk : BitVec 56} (h : p.phase ≠ .fault)
    (hb : p.phase = .bAdd → p.blk.toNat < nblk.toNat) : (p.next nblk).phase ≠ .fault := by
  obtain ⟨ph, blk, j⟩ := p
  cases ph with
  | bAdd =>
    have := hb rfl
    simp only at this
    by_cases h1 : blk.toNat + 1 < nblk.toNat
    · simp [Position.next, h1]
    · simp [Position.next, show blk.toNat + 1 = nblk.toNat by omega]
  | fault => exact absurd rfl h
  | sExp => simp only [Position.next]; split <;> simp
  | rStep => simp only [Position.next]; split <;> simp
  | _ => simp [Position.next]

/-- START is never the operation a phase names. -/
theorem Position.named_ne_start {p : Position} {i : Instr} (h : p.named = some i) : i ≠ .start := by
  obtain ⟨ph, blk, j⟩ := p
  rintro rfl
  cases ph <;> simp [Position.named] at h

/-- No operation word decodes to START. -/
theorem decodeOpw_ne_start (w : BitVec 10) : decodeOpw w ≠ .ok .start := by
  unfold decodeOpw unindexed
  split <;> first | (split <;> simp) | simp

theorem nextTurn_of_nil {s : State} (h : s.turns = []) : s.nextTurn = Turn.sequencer := by simp [State.nextTurn, h]

theorem nextTurn_of_cons {s : State} {u : Turn} {rest : List Turn} (h : s.turns = u :: rest) : s.nextTurn = u := by
  simp [State.nextTurn, h]

@[simp] theorem takeTurn_reset (e : Event) (s : State) : takeTurn ⟨true, e⟩ s = .next s.resetInput := rfl
@[simp] theorem takeTurn_sequencer (s : State) : takeTurn Turn.sequencer s = sequencerTurn s := rfl
@[simp] theorem takeTurn_host (a : HostAction) (s : State) : takeTurn (Turn.host a) s = hostAct a s := rfl
@[simp] theorem takeTurn_feed (w : BitVec 10) (s : State) : takeTurn (Turn.feed w) s = feedWord w s := rfl

theorem step_of_nil {s : State} (h : s.turns = []) : step s = sequencerTurn s := by
  rw [step, nextTurn_of_nil h, State.dropTurn_of_nil h, takeTurn_sequencer]

theorem step_of_cons {s : State} {u : Turn} {rest : List Turn} (h : s.turns = u :: rest) :
    step s = takeTurn u { s with turns := rest } := by
  rw [step, nextTurn_of_cons h, State.dropTurn_of_cons h]

/-- Everything a host action that answers a next state can have done: nothing; a write of `LEN` or of a byte of `MSG`
while not BUSY; a reply; or START. -/
theorem hostAct_cases {a : HostAction} {s t : State} (h : hostAct a s = .next t) :
    t = s ∨ (∃ n, s.phase.busy = false ∧ t = { s with len := n, written := { s.written with len := true } }) ∨
    (∃ k b, s.phase.busy = false ∧ k < s.msgSize ∧ t = { s with msg := s.msg.store k [b] }) ∨
    (∃ r, t = { s with reply := some r }) ∨ (a = .writeCtrl 1 ∧ execStart s = .next t) := by
  cases a with
  | writeCtrl v =>
    simp only [hostAct, hostWriteCtrl, decodeCtrl] at h
    by_cases h1 : v = 1
    · subst h1; exact .inr (.inr (.inr (.inr ⟨rfl, h⟩)))
    · by_cases h0 : v = 0
      · subst h0; injection h with h; exact .inl h.symm
      · rw [if_neg h1, if_neg h0] at h; cases h
  | writeStatus v => injection h with h; exact .inl h.symm
  | writeLen n =>
    cases hb : s.phase.busy <;> simp [hostAct, hostWriteLen, hb] at h
    · exact .inr (.inl ⟨n, rfl, h.symm⟩)
    · exact .inl h.symm
  | writeMsg k b =>
    by_cases hk : s.msgSize ≤ k
    · simp [hostAct, hostWriteMsg, hk] at h
    · cases hb : s.phase.busy <;> simp [hostAct, hostWriteMsg, hb, hk] at h
      · exact .inr (.inr (.inl ⟨k, b, rfl, by omega, h.symm⟩))
      · exact .inl h.symm
  | readCtrl => cases h
  | readStatus => injection h with h; exact .inr (.inr (.inr (.inl ⟨_, h.symm⟩)))
  | readLen =>
    cases hb : s.phase.busy <;> simp [hostAct, hostReadLen, hb] at h
    exact .inr (.inr (.inr (.inl ⟨_, h.symm⟩)))
  | readMsg k =>
    by_cases hk : s.msgSize ≤ k
    · simp [hostAct, hostReadMsg, hk] at h
    · cases hb : s.phase.busy <;> simp [hostAct, hostReadMsg, hb, hk] at h
      exact .inr (.inr (.inr (.inl ⟨_, h.symm⟩)))
  | readDg k =>
    by_cases hk : digestSize ≤ k
    · simp [hostAct, hostReadDg, hk] at h
    · rw [hostAct, hostReadDg, if_neg hk] at h
      by_cases hd : s.phase = .done
      · rw [if_pos hd] at h; injection h with h; exact .inr (.inr (.inr (.inl ⟨_, h.symm⟩)))
      · rw [if_neg hd] at h; cases h

/-- A word fed by hand in the sequencer's order is the sequencer's step. -/
theorem feedWord_of_due {w : BitVec 10} {s : State} (h : s.position.opWord = some w) : feedWord w s = sequencerTurn s :=
  if_pos h

theorem feedWord_of_not_due {w : BitVec 10} {s : State} (h : s.position.opWord ≠ some w) :
    feedWord w s = performOutOfOrder w s := if_neg h

/-- Everything an operation performed out of order that answers a next state can have done: its own effect, recorded, when
all that it reads was written. -/
theorem performOutOfOrder_cases {w : BitVec 10} {s t : State} (h : performOutOfOrder w s = .next t) :
    ∃ i u, decodeOpw w = .ok i ∧ exec i s = .next u ∧ (s.engineReadsWritten i && s.hostReadsWritten i) = true ∧
      t = u.recordOperation i := by
  unfold performOutOfOrder at h
  cases hd : decodeOpw w with
  | error why => rw [hd] at h; cases h
  | ok i =>
    simp only [hd] at h
    cases he : exec i s with
    | next u =>
      simp only [he] at h
      by_cases hr : (s.engineReadsWritten i && s.hostReadsWritten i) = true
      · rw [if_pos hr] at h; injection h with h; exact ⟨i, u, rfl, he, hr, h.symm⟩
      · rw [if_neg hr] at h; cases h
    | fault f => simp only [he] at h; cases h
    | refused r => simp only [he] at h; cases h

/-- An operation performed out of order that reads a location nobody has written never completes (R73). -/
theorem performOutOfOrder_of_unwritten {w : BitVec 10} {i : Instr} {s u : State} (hd : decodeOpw w = .ok i)
    (he : exec i s = .next u) (hr : (s.engineReadsWritten i && s.hostReadsWritten i) = false) :
    performOutOfOrder w s = .fault .unwrittenRead := by
  simp only [performOutOfOrder, hd, he, hr, Bool.false_eq_true, if_false]

/-- An operation performed out of order whose locations are all written is its meaning, recorded (R73). -/
theorem performOutOfOrder_of_written {w : BitVec 10} {i : Instr} {s u : State} (hd : decodeOpw w = .ok i)
    (he : exec i s = .next u) (hr : (s.engineReadsWritten i && s.hostReadsWritten i) = true) :
    performOutOfOrder w s = .next (u.recordOperation i) := by
  simp only [performOutOfOrder, hd, he, hr, if_true]

/-- Everything a step that answers a next state can have done. -/
theorem step_cases {s t : State} (h : step s = .next t) :
    (s.nextTurn.reset = true ∧ t = s.dropTurn.resetInput) ∨
    (s.SequencerActs ∧ sequencerTurn s.dropTurn = .next t) ∨
    (∃ a, s.nextTurn = Turn.host a ∧ hostAct a s.dropTurn = .next t) ∨
    (∃ w i u, s.nextTurn = Turn.feed w ∧ s.position.opWord ≠ some w ∧ decodeOpw w = .ok i ∧ i ≠ .start ∧
      exec i s.dropTurn = .next u ∧ t = u.recordOperation i) := by
  rw [step] at h
  cases hu : s.nextTurn with
  | mk r e =>
    rw [hu] at h
    cases r with
    | true => injection h with h; exact .inl ⟨rfl, h.symm⟩
    | false =>
      cases e with
      | sequencer => exact .inr (.inl ⟨.inl hu, h⟩)
      | host a => exact .inr (.inr (.inl ⟨a, rfl, h⟩))
      | feed w =>
        have h : feedWord w s.dropTurn = .next t := h
        by_cases hw : s.position.opWord = some w
        · rw [feedWord_of_due (s := s.dropTurn) hw] at h
          exact .inr (.inl ⟨.inr ⟨w, hu, hw⟩, h⟩)
        · rw [feedWord_of_not_due (s := s.dropTurn) hw] at h
          obtain ⟨i, u, hd, he, -, rfl⟩ := performOutOfOrder_cases h
          exact .inr (.inr (.inr ⟨w, i, u, rfl, hw, hd, fun e => decodeOpw_ne_start w (by rw [hd, e]), he, rfl⟩))

/-- After operation `i` its writes are recorded. -/
theorem Written.byOperation_holdsWritesOf (m : Written) (i : Instr) : (m.byOperation i).HoldsWritesOf i := by
  cases i with
  | blkLoad => intro k hk; simp [Written.byOperation, hk]
  | _ => simp [Written.HoldsWritesOf, Written.byOperation]

/-- The position write changes nothing of what an operation has written but `BLK` and `J`, which are not on the lists. -/
theorem Written.byPositionWrite_holdsWritesOf {m : Written} {p q : Position} {i : Instr} :
    (m.byPositionWrite p q).HoldsWritesOf i ↔ m.HoldsWritesOf i := by
  cases i <;> rfl

/-- Of the host actions only a performed write of `LEN` is recorded (log 9). -/
theorem hostAct_written {a : HostAction} {s t : State} (h : hostAct a s = .next t) :
   t.written = s.written ∨ ∃ n, a = .writeLen n ∧ t.written = { s.written with len := true } := by
  cases a with
  | writeLen n =>
    simp only [hostAct, hostWriteLen] at h
    split at h <;> injection h with h <;> subst h
    · exact .inl rfl
    · exact .inr ⟨n, rfl, rfl⟩
  | writeCtrl v =>
    left
    simp only [hostAct, hostWriteCtrl] at h
    split at h
    · rename_i i hi
      have : i = .start := by
        unfold decodeCtrl at hi; split at hi
        · cases hi; rfl
        · split at hi <;> cases hi
      subst this
      rcases execStart_cases s with ⟨-, -, e⟩ | ⟨-, -, -, e⟩ | ⟨-, hl, e⟩ | ⟨-, e⟩ <;> rw [show exec .start s = execStart s from rfl, e] at h <;> injection h with h <;> subst h <;> rfl
    · injection h with h; subst h; rfl
    · cases h
  | writeStatus v => injection h with h; subst h; exact .inl rfl
  | writeMsg k b => left; simp only [hostAct, hostWriteMsg] at h; split at h; cases h; split at h <;> injection h with h <;> subst h <;> rfl
  | readCtrl => cases h
  | readStatus => injection h with h; subst h; exact .inl rfl
  | readLen => left; simp only [hostAct, hostReadLen] at h; split at h; cases h; injection h with h; subst h; rfl
  | readMsg k => left; simp only [hostAct, hostReadMsg] at h; split at h; cases h; split at h; cases h; injection h with h; subst h; rfl
  | readDg k => left; simp only [hostAct, hostReadDg] at h; split at h; cases h; split at h; injection h with h; subst h; rfl; cases h

/-- The check `performOutOfOrder` makes is that of R73: no location that the operation reads is unwritten. -/
theorem State.readsUnwritten_iff (s : State) {w : BitVec 10} {i : Instr} (hd : decodeOpw w = .ok i) :
    s.ReadsUnwritten i ↔ (s.engineReadsWritten i && s.hostReadsWritten i) = false := by
  cases i with
  | start => exact absurd hd (decodeOpw_ne_start w)
  | padCopy =>
    simp only [State.ReadsUnwritten, State.engineReadsWritten, State.hostReadsWritten, Bool.true_and, Bool.and_eq_false_iff]
    simp [List.all_eq_false]
  | blkLoad =>
    simp only [State.ReadsUnwritten, State.engineReadsWritten, State.hostReadsWritten, Bool.and_true, Bool.and_eq_false_iff]
    simp [List.all_eq_false]
  | schExp j =>
    simp only [State.ReadsUnwritten, State.engineReadsWritten, State.hostReadsWritten, Bool.and_true, Bool.and_eq_false_iff]
    constructor
    · rintro ⟨d, (rfl | rfl | rfl | rfl), h⟩
      · exact .inl (.inl (.inl h))
      · exact .inl (.inl (.inr h))
      · exact .inl (.inr h)
      · exact .inr h
    · rintro (((h | h) | h) | h)
      · exact ⟨16, by simp, h⟩
      · exact ⟨15, by simp, h⟩
      · exact ⟨7, by simp, h⟩
      · exact ⟨2, by simp, h⟩
  | padLen => simp only [State.ReadsUnwritten, State.engineReadsWritten, State.hostReadsWritten, Bool.and_eq_false_iff, or_comm]
  | rndStep j => simp only [State.ReadsUnwritten, State.engineReadsWritten, State.hostReadsWritten, Bool.and_true, Bool.and_eq_false_iff]
  | blkAdd => simp only [State.ReadsUnwritten, State.engineReadsWritten, State.hostReadsWritten, Bool.and_true, Bool.and_eq_false_iff]
  | _ => simp [State.ReadsUnwritten, State.engineReadsWritten, State.hostReadsWritten]

end Sys2Proof.Machine
end

