-- ==== Sys2Proof/Laws/Run.lean ====
section
/-! SUPPORT. Runs: the sequencer's step in each phase, and the two loops of a block, cut anywhere. -/

namespace Sys2Proof.Machine


/-- No steps. -/
theorem run_zero (s : State) : Host.Core.run core 0 s = .next s := rfl

/-- A run whose first step answers a next state. -/
theorem run_succ {s t : State} (h : step s = .next t) (k : Nat) : Host.Core.run core (k + 1) s = Host.Core.run core k t := by
  simp only [Host.Core.run, show core.step s = _ from h]

/-- A run cut in two. -/
theorem run_add {m n : Nat} {s t : State} (h : Host.Core.run core m s = .next t) :
    Host.Core.run core (m + n) s = Host.Core.run core n t := by
  induction m generalizing s with
  | zero => rw [run_zero] at h; injection h with h; rw [Nat.zero_add, h]
  | succ m ih =>
    cases hs : step s with
    | next u => rw [run_succ hs] at h; rw [show m + 1 + n = m + n + 1 by omega, run_succ hs, ih h]
    | fault f => simp only [Host.Core.run, show core.step s = _ from hs] at h; cases h
    | refused f => simp only [Host.Core.run, show core.step s = _ from hs] at h; cases h

theorem run_one {s t : State} (h : step s = .next t) : Host.Core.run core 1 s = .next t := by
  rw [run_succ h]; rfl

/-- A step in phase `p`, whose operation is `i`. These lemmas leave the record of writes open; `State.Inv` says of it what is
needed. -/
theorem step_of_phase {s u : State} {p : Phase} {i : Instr} (ht : s.turns = []) (hp : s.phase = p)
    (hn : (Position.mk p s.blk s.j).named = some i) (hj : p = .sExp → 16 ≤ s.j.toNat) (he : exec i s = .next u) :
    ∃ m, step s = .next { u.atPosition ((Position.mk p s.blk s.j).next u.nblk) with written := m } := by
  have hn : s.position.named = some i := by rw [named_of_phase hp]; exact hn
  have hq : u.position = Position.mk p s.blk s.j := by
    rw [(exec_frame (Position.named_ne_start hn) he).1]; subst hp; rfl
  refine ⟨(u.recordOperation i).advance.written, ?_⟩
  rw [step_of_nil ht, sequencerTurn_of_exec hn (hp ▸ hj) he, ← hq]; rfl

/-- SCH.EXP `j` on the schedule words. -/
def expandAt (j : BitVec 6) (w : Vector Word 64) : Vector Word 64 :=
  w.set j.toNat (scheduleWord (w[(j - 16).toNat]'(j - 16).isLt) (w[(j - 15).toNat]'(j - 15).isLt)
    (w[(j - 7).toNat]'(j - 7).isLt) (w[(j - 2).toNat]'(j - 2).isLt)) j.isLt

/-- The schedule words after SCH.EXP 16 to `15 + n`. -/
def expandedAfter (w : Vector Word 64) : Nat → Vector Word 64
  | 0 => w
  | n + 1 => expandAt (BitVec.ofNat 6 (16 + n)) (expandedAfter w n)

/-- The working registers after RND.STEP 0 to `n - 1`. -/
def roundedAfter (w : Vector Word 64) (v : Vector Word 8) : Nat → Vector Word 8
  | 0 => v
  | n + 1 => roundStep (romK[(BitVec.ofNat 6 n).toNat]'(BitVec.ofNat 6 n).isLt)
      (w[(BitVec.ofNat 6 n).toNat]'(BitVec.ofNat 6 n).isLt) (roundedAfter w v n)


theorem step_pCopy {s : State} (ht : s.turns = []) (hp : s.phase = .pCopy) (hl : s.len.toNat ≤ s.msgSize) :
    ∃ m, step s = .next { s with phase := .pMark, pad := s.pad.store 0 (s.message s.len.toNat), plen := s.len.setWidth 62, written := m } :=
  step_of_phase ht hp rfl (by simp) (execPadCopy_eq_next.2 ⟨inside_iff.2 (.inr (by omega)), rfl⟩)

theorem step_pMark {s : State} (ht : s.turns = []) (hp : s.phase = .pMark) (hl : s.plen.toNat + 1 ≤ s.padSize) :
    ∃ m, step s = .next { s with phase := .pZero, pad := s.pad.store s.plen.toNat [0x80], plen := s.plen + 1, written := m } :=
  step_of_phase ht hp rfl (by simp) (execPadMark_eq_next.2 ⟨inside_iff.2 (.inr hl), rfl⟩)

theorem step_pZero {s : State} (ht : s.turns = []) (hp : s.phase = .pZero)
    (hl : s.plen.toNat + zeroCount s.plen.toNat ≤ s.padSize) :
    ∃ m, step s = .next { s with phase := .pLen, pad := s.pad.store s.plen.toNat (List.replicate (zeroCount s.plen.toNat) 0),
                                  plen := s.plen + BitVec.ofNat 62 (zeroCount s.plen.toNat), written := m } :=
  step_of_phase ht hp rfl (by simp) (execPadZero_eq_next.2 ⟨inside_iff.2 (.inr hl), rfl⟩)

theorem step_pLen {s : State} (ht : s.turns = []) (hp : s.phase = .pLen) (hl : s.plen.toNat + 8 ≤ s.padSize) :
    ∃ m, step s = .next { s with phase := .hInit, pad := s.pad.store s.plen.toNat (lengthBytes (bitLength s.len)),
                                  plen := s.plen + 8, nblk := BitVec.ofNat 56 ((s.plen.toNat + 8) / 64), written := m } :=
  step_of_phase ht hp rfl (by simp) (execPadLen_eq_next.2 ⟨inside_iff.2 (.inr hl), rfl⟩)

theorem step_hInit {s : State} (ht : s.turns = []) (hp : s.phase = .hInit) :
    ∃ m, step s = .next { s with phase := .bLoad, blk := 0, h := romIV, written := m } :=
  step_of_phase ht hp rfl (by simp) (execHInit_eq_next.2 rfl)

/-- The schedule words after BLK.LOAD. -/
def loaded (s : State) : Vector Word 64 :=
  Vector.ofFn fun t : Fin 64 => if t.val < 16 then s.padWord (64 * s.blk.toNat) t else s.w[t]

theorem step_bLoad {s : State} (ht : s.turns = []) (hp : s.phase = .bLoad) (hi : 64 * s.blk.toNat + 64 ≤ s.padSize) :
    ∃ m, step s = .next { s with phase := .sExp, j := 16, w := loaded s, written := m } :=
  step_of_phase (u := { s with w := loaded s }) ht hp rfl (by simp)
    (execBlkLoad_eq_next.2 ⟨inside_iff.2 (.inr hi), by rw [loaded]⟩)

theorem step_sExp {s : State} (ht : s.turns = []) (hp : s.phase = .sExp) (hj : 16 ≤ s.j.toNat) :
    ∃ m, step s = .next { { s with w := expandAt s.j s.w }.atPosition
      ((Position.mk .sExp s.blk s.j).next s.nblk) with written := m } :=
  step_of_phase ht hp rfl (fun _ => hj) (execSchExp_eq_next.2 ⟨hj, rfl⟩)

theorem step_rCopy {s : State} (ht : s.turns = []) (hp : s.phase = .rCopy) :
    ∃ m, step s = .next { s with phase := .rStep, j := 0, v := s.h, written := m } :=
  step_of_phase ht hp rfl (by simp) (execRndCopy_eq_next.2 rfl)

theorem step_rStep {s : State} (ht : s.turns = []) (hp : s.phase = .rStep) :
    ∃ m, step s = .next { { s with v := roundStep (romK[s.j.toNat]'s.j.isLt) (s.w[s.j.toNat]'s.j.isLt) s.v }.atPosition
      ((Position.mk .rStep s.blk s.j).next s.nblk) with written := m } :=
  step_of_phase ht hp rfl (by simp) (execRndStep_eq_next.2 rfl)

theorem step_bAdd {s : State} (ht : s.turns = []) (hp : s.phase = .bAdd) :
    ∃ m, step s = .next { { s with h := addWords s.h s.v }.atPosition
      ((Position.mk .bAdd s.blk s.j).next s.nblk) with written := m } :=
  step_of_phase ht hp rfl (by simp) (execBlkAdd_eq_next.2 rfl)

theorem step_serial {s : State} (ht : s.turns = []) (hp : s.phase = .serial) :
    ∃ m, step s = .next { s with phase := .done, dg := s.dg.store 0 (digestBytes s.h), written := m } :=
  step_of_phase ht hp rfl (by simp) (execSer_eq_next.2 rfl)

/-- The expansion loop, cut after `n` of its 48 steps. -/
theorem run_expand {s : State} (ht : s.turns = []) (hp : s.phase = .sExp) (hj : s.j = 16) (n : Nat) (hn : n < 48) :
    ∃ m, Host.Core.run core n s =
      .next { s with j := BitVec.ofNat 6 (16 + n), w := expandedAfter s.w n, written := m } := by
  induction n with
  | zero => refine ⟨s.written, ?_⟩; cases s; simp only at hj; subst hj; rfl
  | succ n ih =>
    obtain ⟨m, ih⟩ := ih (by omega)
    have hjn : (BitVec.ofNat 6 (16 + n)).toNat = 16 + n := by simp; omega
    obtain ⟨m', hs⟩ := step_sExp (s := { s with j := BitVec.ofNat 6 (16 + n), w := expandedAfter s.w n, written := m })
      ht hp (by rw [hjn]; omega)
    refine ⟨m', ?_⟩
    rw [run_add ih, run_one hs]
    simp only [Position.next, hjn, show 16 + n < 63 by omega, if_true, State.atPosition, hp]
    congr 2
    exact (BitVec.ofNat_add (16 + n) 1).symm

theorem run_expand_all {s : State} (ht : s.turns = []) (hp : s.phase = .sExp) (hj : s.j = 16) :
    ∃ m, Host.Core.run core 48 s =
      .next { s with phase := .rCopy, j := 63, w := expandedAfter s.w 48, written := m } := by
  obtain ⟨m, h⟩ := run_expand ht hp hj 47 (by omega)
  obtain ⟨m', hs⟩ := step_sExp (s := { s with j := BitVec.ofNat 6 (16 + 47), w := expandedAfter s.w 47, written := m })
    ht hp (show 16 ≤ (BitVec.ofNat 6 (16 + 47)).toNat by decide)
  exact ⟨m', (run_add (m := 47) (n := 1) h).trans (run_one hs)⟩

/-- The round loop, cut after `n` of its 64 steps. -/
theorem run_rounds {s : State} (ht : s.turns = []) (hp : s.phase = .rStep) (hj : s.j = 0) (n : Nat) (hn : n < 64) :
    ∃ m, Host.Core.run core n s =
      .next { s with j := BitVec.ofNat 6 n, v := roundedAfter s.w s.v n, written := m } := by
  induction n with
  | zero => refine ⟨s.written, ?_⟩; cases s; simp only at hj; subst hj; rfl
  | succ n ih =>
    obtain ⟨m, ih⟩ := ih (by omega)
    have hjn : (BitVec.ofNat 6 n).toNat = n := by simp; omega
    obtain ⟨m', hs⟩ := step_rStep (s := { s with j := BitVec.ofNat 6 n, v := roundedAfter s.w s.v n, written := m }) ht hp
    refine ⟨m', ?_⟩
    rw [run_add ih, run_one hs]
    simp only [Position.next, hjn, show n < 63 by omega, if_true, State.atPosition, hp]
    congr 2
    · exact (BitVec.ofNat_add n 1).symm
    · simp only [roundedAfter, hjn]

theorem run_rounds_all {s : State} (ht : s.turns = []) (hp : s.phase = .rStep) (hj : s.j = 0) :
    ∃ m, Host.Core.run core 64 s =
      .next { s with phase := .bAdd, j := 63, v := roundedAfter s.w s.v 64, written := m } := by
  obtain ⟨m, h⟩ := run_rounds ht hp hj 63 (by omega)
  obtain ⟨m', hs⟩ := step_rStep (s := { s with j := BitVec.ofNat 6 63, v := roundedAfter s.w s.v 63, written := m }) ht hp
  exact ⟨m', (run_add (m := 63) (n := 1) h).trans (run_one hs)⟩

theorem expandAt_get {n : Nat} (hn : n < 48) (w : Vector Word 64) (k : Nat) (hk : k < 64) :
    (expandAt (BitVec.ofNat 6 (16 + n)) w)[k] = if k = 16 + n then
      scheduleWord (w[n]'(by omega)) (w[n + 1]'(by omega)) (w[n + 9]'(by omega)) (w[n + 14]'(by omega)) else w[k] := by
  have e (m : Nat) (hm : m ≤ 16) : (BitVec.ofNat 6 (16 + n) - BitVec.ofNat 6 m).toNat = 16 + n - m := by
    rw [BitVec.toNat_sub]; simp only [BitVec.toNat_ofNat]; omega
  have h0 : (BitVec.ofNat 6 (16 + n)).toNat = 16 + n := by simp; omega
  have h16 := e 16 (by omega)
  have h15 := e 15 (by omega)
  have h7 := e 7 (by omega)
  have h2 := e 2 (by omega)
  unfold expandAt
  rw [Vector.getElem_set]
  simp only [h0]
  by_cases hk : k = 16 + n
  · rw [if_pos hk.symm, if_pos hk]
    congr 2 <;> simp [h16, h15, h7, h2] <;> omega
  · rw [if_neg (Ne.symm hk), if_neg hk]

theorem expandedAfter_get_of_lt (w : Vector Word 64) {m n : Nat} (hmn : m ≤ n) (hn : n ≤ 48) (k : Nat) (hk : k < 64)
    (hkm : k < 16 + m) : (expandedAfter w n)[k] = (expandedAfter w m)[k] := by
  induction n, hmn using Nat.le_induction with
  | base => rfl
  | succ n hmn ih =>
    rw [expandedAfter, expandAt_get (by omega), if_neg (by omega), ih (by omega)]

theorem expandedAfter_recurrence (w : Vector Word 64) {n : Nat} (hn : n < 48) :
    (expandedAfter w 48)[16 + n]'(by omega) = scheduleWord ((expandedAfter w 48)[n]'(by omega))
      ((expandedAfter w 48)[n + 1]'(by omega)) ((expandedAfter w 48)[n + 9]'(by omega)) ((expandedAfter w 48)[n + 14]'(by omega)) := by
  rw [expandedAfter_get_of_lt w (show n + 1 ≤ 48 by omega) (le_refl _) _ _ (by omega), expandedAfter, expandAt_get hn, if_pos rfl]
  have e (k : Nat) (hk : k < 64) (hkn : k < 16 + n) : (expandedAfter w 48)[k] = (expandedAfter w n)[k] :=
    expandedAfter_get_of_lt w (show n ≤ 48 by omega) (le_refl _) _ _ hkn
  rw [e n _ (by omega), e (n + 1) _ (by omega), e (n + 9) _ (by omega), e (n + 14) _ (by omega)]

theorem loaded_get (s : State) {k : Nat} (hk : k < 16) :
    (loaded s)[k]'(by omega) = s.padWord (64 * s.blk.toNat) k := by
  simp [loaded, hk]

end Sys2Proof.Machine
end

