-- ==== Sys2Proof/Tests/Slice0.lean ====
section
/-! SUPPORT. Tests of the model against 95_test_vectors.md, and a witness for the hypotheses of every statement. The expected
values are the spec's own; none was taken from the model. -/

set_option Elab.async false

open Sys2Proof Sys2Proof.Machine

namespace Sys2Proof.Tests

/-! ## Helpers -/

/-- A field of the state a step answers, if it answers one. -/
def after {α : Type} (r : Result) (f : State → α) : Option α :=
  match r with
  | .next s => some (f s)
  | .fault _ => none
  | .refused _ => none

/-- The fault a step stops with, if it stops with one. -/
def faultOf (r : Result) : Option Fault :=
  match r with
  | .next _ => none
  | .fault f => some f
  | .refused _ => none

/-- An engine with 1024 bytes of `MSG` at a sequencer position. -/
def placed (p : Phase) (blk : BitVec 56) (j : BitVec 6) : State :=
  { State.reset with phase := p, blk := blk, j := j, cfg := { lmax := ⟨1024, by decide⟩ } }

/-- The message "abc", written and ready to be started (95 section 4.2). -/
def abcIdle : State := { placed .idle 0 0 with msg := [(0, 0x61), (1, 0x62), (2, 0x63)], len := 3 }

/-- The padded buffer of "abc" (95 section 4.2). -/
def abcPad : Memory :=
  [(0, 0x61), (1, 0x62), (2, 0x63), (3, 0x80)] ++ (List.range 52).map (fun k => (4 + k, 0x00))
    ++ [(56, 0x00), (57, 0x00), (58, 0x00), (59, 0x00), (60, 0x00), (61, 0x00), (62, 0x00), (63, 0x18)]

/-- Every register recorded as written. -/
def allWritten : Written :=
  { blk := true, j := true, plen := true, nblk := true, len := true, h := true, v := true, w := Vector.replicate 64 true }

/-- "abc" padded, in some phase of its one block. -/
def abcBlock (p : Phase) (j : BitVec 6) : State :=
  { abcIdle with phase := p, j := j, plen := 64, nblk := 1, pad := abcPad, h := romIV, v := romIV, written := allWritten }

/-- `W[0]` and `W[15]` of "abc", the other words zero (95 section 5.1). -/
def abcLoaded (p : Phase) (j : BitVec 6) : State :=
  { abcBlock p j with w := ((Vector.replicate 64 0).set 0 0x61626380).set 15 0x00000018 }

/-! ## Well-formedness (R70, R72): the one check, and terms it refuses -/

theorem test_wellFormed_refuses_index_below_16 :
    (Instr.schExp 5).wellFormed = false ∧ (Instr.schExp 0).wellFormed = false ∧ (Instr.schExp 15).wellFormed = false := by decide

theorem test_wellFormed_admits :
    (Instr.schExp 16).wellFormed = true ∧ (Instr.schExp 63).wellFormed = true ∧ (Instr.rndStep 0).wellFormed = true := by decide

/-! ## Decoding (95 section 8.1): words written bit by bit, `opc` then `idx` -/

theorem test_decode_padder :
    decodeOpw 0b0001000000 = .ok .padCopy ∧ decodeOpw 0b0010000000 = .ok .padMark ∧
    decodeOpw 0b0011000000 = .ok .padZero ∧ decodeOpw 0b0100000000 = .ok .padLen := by decide

theorem test_decode_schedule :
    decodeOpw 0b0110000000 = .ok .blkLoad ∧ decodeOpw 0b0111010000 = .ok (.schExp 16) ∧
    decodeOpw 0b0111100101 = .ok (.schExp 37) ∧ decodeOpw 0b0111111111 = .ok (.schExp 63) := by decide

theorem test_decode_rounds :
    decodeOpw 0b0101000000 = .ok .hInit ∧ decodeOpw 0b1000000000 = .ok .rndCopy ∧
    decodeOpw 0b1001000000 = .ok (.rndStep 0) ∧ decodeOpw 0b1001011111 = .ok (.rndStep 31) ∧
    decodeOpw 0b1010000000 = .ok .blkAdd := by decide

theorem test_decode_serializer_and_start :
    decodeOpw 0b1011000000 = .ok .ser ∧ decodeCtrl 0b00000000000000000000000000000001 = .ok .start := by decide

theorem test_decode_illegal :
    decodeOpw 0x000 = .error .unassignedOpcode ∧ decodeOpw 0x03F = .error .unassignedOpcode ∧
    decodeOpw 0x041 = .error .indexNotZero ∧ decodeOpw 0x181 = .error .indexNotZero ∧
    decodeOpw 0x1C0 = .error .scheduleIndexBelow16 ∧ decodeOpw 0x1CF = .error .scheduleIndexBelow16 ∧
    decodeOpw 0x2C1 = .error .indexNotZero ∧ decodeOpw 0x300 = .error .unassignedOpcode ∧
    decodeOpw 0x340 = .error .unassignedOpcode ∧ decodeOpw 0x3FF = .error .unassignedOpcode := by decide

/-- 121 legal words of 1024 (95 section 8.1). -/
theorem test_decode_counts :
    ((List.range 1024).filter fun w => (decodeOpw (BitVec.ofNat 10 w)).toOption.isSome).length = 121 := by decide +kernel

/-- A number that is no operation word is not decoded and not run (log 8). -/
theorem test_wide_word_is_refused :
    decodeTableWord 16 0x0440 = none ∧
    (match step (State.reset.withFetchWord 16 0x0440) with | .refused r => some r | _ => none) =
      some (.illegalOperation .unassignedOpcode) := by decide

theorem test_decode_table_word :
    decodeTableWord 16 0x0040 = some .padCopy ∧ decodeTableWord 16 0x01D0 = some (.schExp 16) ∧
    decodeTableWord 16 0x01C0 = none ∧ decodeTableWord 16 0x0440 = none ∧ decodeTableWord 32 1 = some .start ∧
    decodeTableWord 32 0 = none := by decide

/-- 95 section 8.2. -/
theorem test_opWord_of_position :
    (Position.mk .pCopy 3 9).opWord = some 0x040 ∧ (Position.mk .bLoad 1 63).opWord = some 0x180 ∧
    (Position.mk .sExp 5 40).opWord = some 0x1E8 ∧ (Position.mk .rStep 135 63).opWord = some 0x27F ∧
    (Position.mk .bAdd 0 63).opWord = some 0x280 ∧ (Position.mk .done 0 63).opWord = none := by decide

/-- The words of program 1 (95 section 9.1): 121 operations, the first and the last of each run. -/
theorem test_digest_trace :
    (digestOps 1).length = 121 ∧
    (digestOps 1).take 8 = [.padCopy, .padMark, .padZero, .padLen, .hInit, .blkLoad, .schExp 16, .schExp 17] ∧
    ((digestOps 1).drop 52).take 4 = [.schExp 62, .schExp 63, .rndCopy, .rndStep 0] ∧
    (digestOps 1).drop 117 = [.rndStep 62, .rndStep 63, .blkAdd, .ser] := by
  decide +kernel

theorem test_trace_lines :
    traceLine (.schExp 37) = "SCH.EXP 37" ∧ traceLine (.rndStep 0) = "RND.STEP 0" ∧ traceLine .blkLoad = "BLK.LOAD" := by decide

/-! ## Constants (93 part 2: G1, G2) -/

/-- A cube root: `k` is the first 32 fractional bits of the cube root of `p`, whose whole part is `q`. -/
def isCubeRootFraction (p q : Nat) (k : Word) : Bool :=
  decide ((q * 2 ^ 32 + k.toNat) ^ 3 ≤ p * 2 ^ 96 ∧ p * 2 ^ 96 < (q * 2 ^ 32 + k.toNat + 1) ^ 3)

def primes : List Nat :=
  [2, 3, 5, 7, 11, 13, 17, 19, 23, 29, 31, 37, 41, 43, 47, 53] ++
  [59, 61, 67, 71, 73, 79, 83, 89, 97, 101, 103, 107, 109, 113, 127, 131] ++
  [137, 139, 149, 151, 157, 163, 167, 173, 179, 181, 191, 193, 197, 199, 211, 223] ++
  [227, 229, 233, 239, 241, 251, 257, 263, 269, 271, 277, 281, 283, 293, 307, 311]

/-- Every `K[j]` is the fraction of the cube root of the `j`-th prime; the whole parts run from 1 to 6. -/
theorem test_round_constants :
    (primes.zip romK.toList).all (fun c => (List.range 7).any fun q => isCubeRootFraction c.1 q c.2) = true := by decide +kernel

/-- Every `IV[k]` is the fraction of the square root of the `k`-th prime. -/
theorem test_initial_values :
    (primes.zip romIV.toList).all (fun c => (List.range 5).any fun q =>
      decide ((q * 2 ^ 32 + c.2.toNat) ^ 2 ≤ c.1 * 2 ^ 64 ∧ c.1 * 2 ^ 64 < (q * 2 ^ 32 + c.2.toNat + 1) ^ 2)) = true := by
  decide +kernel

/-! ## Primitives (95 section 3) -/

theorem test_rotr :
    rotr 0x00000001 1 = 0x80000000 ∧ rotr 0x80000000 31 = 0x00000001 ∧ rotr 0x12345678 8 = 0x78123456 ∧
    rotr 0x12345678 19 = 0x8ACF0246 ∧ rotr 0xDEADBEEF 25 = 0x56DF77EF := by decide +kernel

theorem test_shr : shr 0x12345678 3 = 0x02468ACF ∧ shr 0x80000000 3 = 0x10000000 ∧ shr 0xFFFFFFFF 10 = 0x003FFFFF := by decide +kernel

theorem test_sigma :
    sigma0 0x12345678 = 0xE7FCE6EE ∧ sigma1 0x12345678 = 0xA1F78649 ∧ bigS0 0x12345678 = 0x66146474 ∧
    bigS1 0x12345678 = 0x3561ABDA ∧ sigma0 0xFFFFFFFF = 0x1FFFFFFF ∧ sigma1 0xFFFFFFFF = 0x003FFFFF := by decide +kernel

theorem test_ch_maj :
    ch 0xF0F0F0F0 0xAAAAAAAA 0x55555555 = 0xA5A5A5A5 ∧ ch 0x510E527F 0x9B05688C 0x1F83D9AB = 0x1F85C98C ∧
    maj 0x6A09E667 0xBB67AE85 0x3C6EF372 = 0x3A6FE667 ∧ maj 0xFFFFFFFF 0x12345678 0x9ABCDEF0 = 0x9ABCDEF8 := by decide +kernel

theorem test_big_endian :
    be32 0x61 0x62 0x63 0x80 = 0x61626380 ∧ wordBytes 0xBA7816BF = [0xBA, 0x78, 0x16, 0xBF] ∧
    lengthBytes (bitLength 3) = [0, 0, 0, 0, 0, 0, 0, 0x18] ∧
    lengthBytes (bitLength 8692) = [0, 0, 0, 0, 0, 0x01, 0x0F, 0xA0] := by decide +kernel

/-- The largest legal length (95 section 4.1). -/
theorem test_largest_bit_length :
    lengthBytes (bitLength (2 ^ 61 - 1)) = [0xFF, 0xFF, 0xFF, 0xFF, 0xFF, 0xFF, 0xFF, 0xF8] := by decide +kernel

/-- `z` for `L` of 0, 3, 55, 56, 63, 64, 119, 8692 (95 section 4.1). -/
theorem test_zero_count :
    [0, 3, 55, 56, 63, 64, 119, 8692].map (fun l => zeroCount (l + 1)) = [55, 52, 0, 63, 56, 55, 0, 3] := by decide

/-! ## The operations, one step each (95 sections 4.2, 5.1 to 5.3, 9.2, 9.3) -/

theorem test_PAD_COPY :
    after (step { abcIdle with phase := .pCopy }) (fun t => (t.pad, t.plen, t.phase)) =
      some ([(0, 0x61), (1, 0x62), (2, 0x63)], 3, .pMark) := by decide

theorem test_PAD_MARK :
    after (step { abcIdle with phase := .pMark, plen := 3, pad := [(0, 0x61), (1, 0x62), (2, 0x63)] })
      (fun t => (t.pad, t.plen, t.phase)) = some ([(0, 0x61), (1, 0x62), (2, 0x63), (3, 0x80)], 4, .pZero) := by decide

theorem test_PAD_ZERO :
    after (step { abcIdle with phase := .pZero, plen := 4 })
      (fun t => (t.pad.read? 3, t.pad.read? 4, t.pad.read? 55, t.pad.read? 56, t.plen)) =
      some (none, some 0, some 0, none, 56) := by decide +kernel

/-- `L mod 64 = 55`: nothing is written (R90). -/
theorem test_PAD_ZERO_empty : after (step { abcIdle with phase := .pZero, plen := 56 }) (fun t => (t.pad, t.plen)) = some ([], 56) := by
  decide

theorem test_PAD_LEN :
    after (step { abcIdle with phase := .pLen, plen := 56 }) (fun t => (t.pad, t.plen, t.nblk)) =
      some ([(56, 0), (57, 0), (58, 0), (59, 0), (60, 0), (61, 0), (62, 0), (63, 0x18)], 64, 1) := by decide

theorem test_H_INIT :
    after (step (placed .hInit 7 9)) (fun t => (t.h[0], t.h[7], t.phase, t.blk, t.j)) =
      some (0x6A09E667, 0x5BE0CD19, .bLoad, 0, 9) := by decide

theorem test_BLK_LOAD :
    after (step (abcBlock .bLoad 5)) (fun t => (t.w[0], t.w[1], t.w[14], t.w[15], t.phase, t.j)) =
      some (0x61626380, 0, 0, 0x18, .sExp, 16) := by decide +kernel

theorem test_SCH_EXP_17 :
    after (step (abcLoaded .sExp 17)) (fun t => (t.w[17], t.w[16], t.position)) =
      some (0x000F0000, 0, ⟨.sExp, 0, 18⟩) := by decide +kernel

/-- `W[63]` of "abc" (95 section 5.1, worked by hand there). -/
theorem test_SCH_EXP_63 :
    after (step { abcLoaded .sExp 63 with w :=
        ((((Vector.replicate 64 0).set 47 0x065C43DA).set 48 0xFB3E89CB).set 56 0xEF57B9CD).set 61 0x668B2FF8 })
      (fun t => (t.w[63], t.position)) = some (0x12B1EDEB, ⟨.rCopy, 0, 63⟩) := by decide +kernel

theorem test_RND_COPY :
    after (step { abcBlock .rCopy 63 with v := Vector.replicate 8 0 }) (fun t => (t.v, t.position)) =
      some (romIV, ⟨.rStep, 0, 0⟩) := by decide +kernel

theorem test_RND_STEP_0 :
    after (step (abcLoaded .rStep 0)) (fun t => (t.v, t.position)) =
      some (#v[0x5D6AEBCD, 0x6A09E667, 0xBB67AE85, 0x3C6EF372, 0xFA2A4622, 0x510E527F, 0x9B05688C, 0x1F83D9AB],
        ⟨.rStep, 0, 1⟩) := by decide +kernel

/-- The last round of "abc", from row 62 to row 63 of 95 section 5.2. -/
theorem test_RND_STEP_63 :
    after (step { placed .rStep 0 63 with
        w := (Vector.replicate 64 0).set 63 0x12B1EDEB,
        v := #v[0xD39A2165, 0x04D24D6C, 0xB85E2CE9, 0xB6AE8FFF, 0xFB121210, 0x948D25B6, 0x961F4894, 0xB21BAD3D] })
      (fun t => (t.v, t.position)) =
      some (#v[0x506E3058, 0xD39A2165, 0x04D24D6C, 0xB85E2CE9, 0x5EF50F24, 0xFB121210, 0x948D25B6, 0x961F4894],
        ⟨.bAdd, 0, 63⟩) := by decide +kernel

theorem test_BLK_ADD :
    after (step { abcBlock .bAdd 63 with
        v := #v[0x506E3058, 0xD39A2165, 0x04D24D6C, 0xB85E2CE9, 0x5EF50F24, 0xFB121210, 0x948D25B6, 0x961F4894] })
      (fun t => (t.h, t.position)) =
      some (#v[0xBA7816BF, 0x8F01CFEA, 0x414140DE, 0x5DAE2223, 0xB00361A3, 0x96177A9C, 0xB410FF61, 0xF20015AD],
        ⟨.serial, 0, 63⟩) := by decide +kernel

theorem test_SER :
    after (step { placed .serial 0 63 with h := (Vector.replicate 8 0).set 0 0xBA7816BF |>.set 7 0xF20015AD })
      (fun t => (t.dg.take 4, t.dg.drop 28, t.phase)) =
      some ([(0, 0xBA), (1, 0x78), (2, 0x16), (3, 0xBF)], [(28, 0xF2), (29, 0x00), (30, 0x15), (31, 0xAD)], .done) := by
  decide +kernel

theorem test_START :
    after (step { abcIdle with turns := [Turn.host (.writeCtrl 1)] }) (fun t => (t.phase, t.cause, t.status)) =
      some (.pCopy, .none, 0x00000001) := by decide

/-- 95 section 8.7: `2^61` overflows, whatever `LMAX`; 1025 is `LMAX + 1`; 1024 is accepted. -/
theorem test_START_length_check :
    [(0x2000000000000000 : BitVec 64), 0xFFFFFFFFFFFFFFFF, 0x1FFFFFFFFFFFFFFF, 1025, 1024].map
        (fun n => after (exec .start { abcIdle with len := n }) State.status) =
      [some 0x00000014, some 0x00000014, some 0x00000024, some 0x00000024, some 0x00000001] := by decide

/-! ## The position and the host (95 sections 8.3, 8.6, 8.8) -/

/-- The rows of BLK.ADD (95 section 8.3), `NBLK` of 2, 2 and 1. -/
theorem test_next_position_of_BLK_ADD :
    (Position.mk .bAdd 0 63).next 2 = ⟨.bLoad, 1, 63⟩ ∧ (Position.mk .bAdd 1 63).next 2 = ⟨.serial, 1, 63⟩ ∧
    (Position.mk .bAdd 0 63).next 1 = ⟨.serial, 0, 63⟩ := by decide

theorem test_next_position_of_loops :
    (Position.mk .sExp 0 62).next 2 = ⟨.sExp, 0, 63⟩ ∧ (Position.mk .sExp 0 63).next 2 = ⟨.rCopy, 0, 63⟩ ∧
    (Position.mk .rStep 0 62).next 2 = ⟨.rStep, 0, 63⟩ ∧ (Position.mk .rStep 0 63).next 2 = ⟨.bAdd, 0, 63⟩ := by decide

theorem test_host_refusals :
    hostAct (.readDg 0) abcIdle = .refused .digestNotReady ∧ hostAct (.writeCtrl 2) abcIdle = .refused (.reservedControlValue 2) ∧
    hostAct .readCtrl abcIdle = .refused .readOfControl ∧ hostAct (.writeMsg 1024 0) abcIdle = .refused .noSuchAddress :=
  ⟨rfl, rfl, rfl, rfl⟩

theorem test_host_drops_while_busy :
    hostAct (.writeLen 99) (abcBlock .rStep 17) = .next (abcBlock .rStep 17) ∧
    hostAct (.writeMsg 0 0x7A) (abcBlock .rStep 17) = .next (abcBlock .rStep 17) ∧
    hostAct (.writeCtrl 1) (abcBlock .rStep 17) = .next (abcBlock .rStep 17) := ⟨rfl, rfl, rfl⟩

theorem test_host_reads_and_writes :
    after (hostAct (.writeMsg 1 0x7A) abcIdle) (fun t => (t.msg, t.len)) = some ([(0, 0x61), (1, 0x7A), (2, 0x63)], 3) ∧
    after (hostAct .readLen abcIdle) (fun t => t.reply) = some (some (.len 3)) ∧
    after (hostAct (.readMsg 2) abcIdle) (fun t => t.reply) = some (some (.msg 0x63)) := by decide

/-- R73: by hand from reset, RND.STEP 0, BLK.ADD, SCH.EXP 16 and PAD.MARK read registers nobody has written; H.INIT does
not, and after it RND.COPY finds `H` written. -/
theorem test_hand_run_of_unwritten :
    ([0x240, 0x280, 0x1D0, 0x080].map fun w => faultOf (takeTurn (Turn.feed w) State.reset)) =
      List.replicate 4 (some .unwrittenRead) ∧
    after (takeTurn (Turn.feed 0x140) State.reset) (fun t => (t.h[0], t.written.h)) = some (0x6A09E667, true) ∧
    after (takeTurn (Turn.feed 0x200) { State.reset with h := romIV, written := { Written.nothing with h := true } })
      (fun t => (t.v[7], t.written.v)) = some (0x5BE0CD19, true) := by
  decide +kernel

/-- 95 section 9.2, fed word by word: BLK.LOAD and SCH.EXP 16 leave the positions of its table, `W` unwritten before. -/
theorem test_fed_in_order :
    after (takeTurn (Turn.feed 0x180) { abcBlock .bLoad 0 with written := { allWritten with j := false, w := Written.nothing.w } })
      (fun t => (t.position, t.w[0], t.w[15], t.written.w[15], t.written.w[16])) =
      some (⟨.sExp, 0, 16⟩, 0x61626380, 0x00000018, true, false) ∧
    after (takeTurn (Turn.feed 0x1D0) (abcLoaded .sExp 16)) (fun t => (t.position, t.w[16])) =
      some (⟨.sExp, 0, 17⟩, 0x61626380) := by decide +kernel

/-- Out of order the position stands: SCH.EXP 16 fed in IDLE (R73). -/
theorem test_fed_out_of_order :
    after (takeTurn (Turn.feed 0x1D0) (abcLoaded .idle 5)) (fun t => (t.position, t.w[16])) =
      some (⟨.idle, 0, 5⟩, 0x61626380) := by decide +kernel

/-- R73: by hand on "abc", PAD.COPY runs once the host has written `LEN`, and stops on a byte of `MSG` it has not. -/
theorem test_hand_run_of_PAD_COPY :
    after (takeTurn (Turn.feed 0x040) { abcIdle with written := { Written.nothing with len := true } })
      (fun t => (t.pad, t.written.plen)) = some ([(0, 0x61), (1, 0x62), (2, 0x63)], true) ∧
    faultOf (takeTurn (Turn.feed 0x040) { abcIdle with len := 4, written := { Written.nothing with len := true } }) =
      some .unwrittenRead ∧
    faultOf (takeTurn (Turn.feed 0x040) abcIdle) = some .unwrittenRead := by decide +kernel

theorem test_reset_wins :
    after (step { abcBlock .sExp 40 with turns := [⟨true, .host (.writeCtrl 1)⟩] })
      (fun t => (t.phase, t.msg, t.status)) = some (.idle, [], 0x00000000) := by decide

/-! ## The big-step functions (95 section 2) -/

/-- The last bytes of T1's digest. -/
theorem test_digest_of_abc : (digest [0x61, 0x62, 0x63]).drop 28 = [0xF2, 0x00, 0x15, 0xAD] := by decide +kernel

/-- `PLEN` for `L` of 0, 55, 56, 64, 119, 120 (95 section 4.1). -/
theorem test_padded_lengths :
    [0, 55, 56, 64, 119, 120].map (fun l => (padMessage (List.replicate l 0x61)).length) = [64, 64, 128, 128, 128, 192] := by decide +kernel

/-! ## Witnesses: a state and operands that meet the hypotheses of each statement -/

/-- The largest message memory, with a length the padder takes to the last byte of `PAD`. -/
def largest (p : Phase) : State :=
  { State.reset with phase := p, len := 0x1FFFFFFFFFFFFFFF, cfg := { lmax := ⟨2 ^ 61 - 1, by decide⟩ } }

theorem witness_DecodeEncodeRoundTrip :
    (Instr.schExp 16).wellFormed = true ∧ (Instr.rndStep 63).wellFormed = true ∧ Instr.start.wellFormed = true ∧
    decode (.q 0x1FF) = .ok (.schExp 63) ∧ decode (.hc 1) = .ok .start := by decide

/-- Each class of R72 at both ends, and a word of each legal form. -/
theorem witness_IllegalWordsRefusedByName :
    (0x000#10).toNat / 64 = 0 ∧ (0x03F#10).toNat / 64 = 0 ∧ 12 ≤ (0x300#10).toNat / 64 ∧ 12 ≤ (0x3FF#10).toNat / 64 ∧
    ((0x1C0#10).toNat / 64 = 7 ∧ (0x1C0#10).toNat % 64 < 16) ∧ ((0x1CF#10).toNat / 64 = 7 ∧ (0x1CF#10).toNat % 64 < 16) ∧
    (1 ≤ (0x041#10).toNat / 64 ∧ (0x041#10).toNat % 64 ≠ 0) ∧ ((0x2FF#10).toNat / 64 ≤ 11 ∧ (0x2FF#10).toNat % 64 ≠ 0) ∧
    decodeOpw 0x1CF = .error .scheduleIndexBelow16 ∧
    ((0x2C0#10).toNat % 64 = 0 ∧ (0x2C0#10).toNat / 64 ≠ 7) ∧ ((0x1D0#10).toNat / 64 = 7 ∧ 16 ≤ (0x1D0#10).toNat % 64) ∧
    (0x27F#10).toNat / 64 = 9 := by decide

theorem witness_OperationWordOfPosition :
    (Position.mk .idle 0 0).phase.busy = false ∧ (Position.mk .serial 0 63).phase.busy = true ∧
    ((Position.mk .sExp 0 16).phase = .sExp ∧ 16 ≤ (Position.mk .sExp 0 16).j.toNat) := by decide

/-- The sequencer's turn, with no turn left and with one; a fault; a START; a host write; RESET; a word fed by hand that finds
its registers written, and one that does not. -/
theorem witness_StepRunsDecodedInstruction :
    ((placed .hInit 0 0).turns = [] ∧ (placed .hInit 0 0).position.opWord = some 0x140 ∧ decodeOpw 0x140 = .ok .hInit ∧
      (after (exec .hInit (placed .hInit 0 0)) (fun _ => ())).isSome = true) ∧
    (exec .padMark { placed .pMark 0 0 with plen := 2000 } = .fault .noPadAddress) ∧
    ({ placed .serial 0 0 with turns := [Turn.sequencer] }.turns = Turn.sequencer :: [] ∧
      (placed .serial 0 0).position.opWord = some 0x2C0 ∧ decodeOpw 0x2C0 = .ok .ser) ∧
    ({ abcIdle with turns := [Turn.host (.writeCtrl 1)] }.turns = Turn.host (.writeCtrl 1) :: [] ∧ decodeCtrl 1 = .ok .start) ∧
    ({ abcIdle with turns := [Turn.host (.writeLen 9)] }.turns = Turn.host (.writeLen 9) :: [] ∧
      { abcIdle with turns := [⟨true, .sequencer⟩] }.turns = ⟨true, .sequencer⟩ :: []) ∧
    ({ abcIdle with turns := [Turn.feed 0x240] }.turns = Turn.feed 0x240 :: [] ∧ decodeOpw 0x240 = .ok (.rndStep 0) ∧
      abcIdle.position.opWord ≠ some 0x240 ∧ (abcBlock .rStep 0).position.opWord = some 0x240 ∧
      (abcBlock .bLoad 0).position.opWord ≠ some 0x240 ∧ abcIdle.ReadsUnwritten (.rndStep 0) ∧ ¬ (abcBlock .rStep 0).ReadsUnwritten (.rndStep 0)) := by
  refine ⟨by decide, rfl, ?_, ?_, ?_, ?_⟩
  · exact ⟨rfl, by decide⟩
  · exact ⟨rfl, by decide⟩
  · exact ⟨rfl, rfl⟩
  · exact ⟨rfl, by decide, by decide, by decide, by decide, .inl rfl, by rintro (h | h) <;> cases h⟩

theorem witness_RestingSequencerChangesNothing :
    ((placed .idle 0 0).phase = .idle ∧ (placed .done 0 0).phase = .done ∧ (placed .fault 0 0).phase = .fault) ∧
    (placed .done 0 0).turns = [] ∧ { placed .done 0 0 with turns := [Turn.sequencer] }.turns = Turn.sequencer :: [] := by
  decide

/-- Every row of R122 at a state from which the sequencer steps: both loops below, at and before their last index, and
BLK.ADD before and at the last block. -/
theorem witness_NextPositionTable :
    ([placed .pCopy 0 0, placed .pMark 0 0, { placed .pZero 0 0 with plen := 56 }, placed .pLen 0 0, placed .hInit 0 0,
      abcBlock .bLoad 0, placed .sExp 0 62, placed .sExp 0 63, placed .rCopy 0 0, placed .rStep 0 62, placed .rStep 0 63,
      { placed .bAdd 0 63 with nblk := 2 }, { placed .bAdd 1 63 with nblk := 2 }, placed .serial 0 63].map fun s =>
        (s.turns.isEmpty, (after (step s) (fun t => t.phase))))
      = [(true, some .pMark), (true, some .pZero), (true, some .pLen), (true, some .hInit), (true, some .bLoad),
         (true, some .sExp), (true, some .sExp), (true, some .rCopy), (true, some .rStep), (true, some .rStep),
         (true, some .bAdd), (true, some .bLoad), (true, some .serial), (true, some .done)] := by decide +kernel

/-- `LEN` of 0, and `LEN = LMAX`; an address below `LEN`, and one at it. -/
theorem witness_PadCopyCopiesMessage :
    (placed .pCopy 0 0).len.toNat ≤ (placed .pCopy 0 0).msgSize ∧
    (largest .pCopy).len.toNat ≤ (largest .pCopy).msgSize ∧ 2 < abcIdle.len.toNat ∧ abcIdle.len.toNat ≤ 3 := by decide

theorem witness_PadMarkAppendsMarker :
    (placed .pMark 0 0).plen.toNat < (placed .pMark 0 0).padSize ∧
    { placed .pMark 0 0 with plen := 1087 }.plen.toNat < { placed .pMark 0 0 with plen := 1087 }.padSize := by decide

/-- `z = 0` with `PLEN` of 56, and `z = 63` with `PLEN` of 57. -/
theorem witness_PadZeroFillsTo56 :
    ((56 + 0) % 64 = 56 ∧ 0 < 64) ∧ ((57 + 63) % 64 = 56 ∧ 63 < 64 ∧ 57 + 63 ≤ (placed .pZero 0 0).padSize) := by decide

/-- A length of `2^61` and the largest one. -/
theorem witness_PadLenBeyondDomain :
    2 ^ 61 ≤ (0x2000000000000000#64).toNat ∧ 2 ^ 61 ≤ (0xFFFFFFFFFFFFFFFF#64).toNat ∧
    { placed .pLen 0 0 with plen := 56 }.plen.toNat + 8 ≤ { placed .pLen 0 0 with plen := 56 }.padSize := by decide

theorem witness_PadLenAppendsBitLength :
    ((placed .pLen 0 0).len.toNat < 2 ^ 61 ∧ (largest .pLen).len.toNat < 2 ^ 61) ∧
    { placed .pLen 0 0 with plen := 56 }.plen.toNat + 8 ≤ { placed .pLen 0 0 with plen := 56 }.padSize ∧
    { placed .pLen 0 0 with plen := 1080 }.plen.toNat + 8 ≤ { placed .pLen 0 0 with plen := 1080 }.padSize := by decide

theorem witness_PadderPostcondition :
    ((placed .pCopy 0 0).turns = [] ∧ (placed .pCopy 0 0).phase = .pCopy) ∧
    ((largest .pCopy).turns = [] ∧ (largest .pCopy).phase = .pCopy ∧ (largest .pCopy).len.toNat ≤ (largest .pCopy).msgSize) := by
  decide

theorem witness_PaddedMessageIsWholeBlocks : ([0x80] : List Byte).length % 64 ≠ 0 := by decide

theorem witness_PaddingIsInjective :
    ([0x80] : List Byte).length < 2 ^ 61 ∧ padMessage [0x80] = padMessage [0x80] := ⟨by decide, rfl⟩

theorem witness_BlkLoadReadsBigEndianWords :
    64 * (abcBlock .bLoad 0).blk.toNat + 64 ≤ (abcBlock .bLoad 0).padSize ∧
    64 * (placed .bLoad 16 0).blk.toNat + 64 ≤ (placed .bLoad 16 0).padSize := by decide

theorem witness_SchExpAppliesRecurrence : 16 ≤ (16#6).toNat ∧ 16 ≤ (63#6).toNat := by decide

theorem witness_ScheduleAfterExpansion :
    (abcBlock .bLoad 0).turns = [] ∧ (abcBlock .bLoad 0).phase = .bLoad ∧
    64 * (abcBlock .bLoad 0).blk.toNat + 64 ≤ (abcBlock .bLoad 0).padSize := by decide

theorem witness_RotationByArithmeticAndByBit : (1 ≤ 1 ∧ 1 ≤ 31) ∧ (1 ≤ 31 ∧ 31 ≤ 31) ∧ 0 < 32 ∧ 31 < 32 := by decide

theorem witness_BigEndianConversions : (0 < 4 ∧ 3 < 4) ∧ 0 < 8 ∧ 7 < 8 := by decide

theorem witness_ChoiceAndMajorityByBit : 0 < 32 ∧ 31 < 32 := by decide

theorem witness_RotationNetworksByBit : 0 < 32 ∧ 31 < 32 := by decide

theorem witness_SerWritesDigest : (0 < 8 ∧ 0 < 4) ∧ (7 < 8 ∧ 3 < 4) ∧ 32 ≤ 32 := by decide

/-- The three verdicts at their boundaries (95 section 8.7), and the two ways a START is dropped. -/
theorem witness_StartAcceptsChecksOrDrops :
    (abcIdle.phase = .idle ∧ abcIdle.len.toNat ≤ abcIdle.msgSize) ∧
    ((placed .done 0 0).phase = .done ∧ 2 ^ 61 ≤ (0x2000000000000000#64).toNat) ∧
    ((0x1FFFFFFFFFFFFFFF#64).toNat < 2 ^ 61 ∧ abcIdle.msgSize < (1025#64).toNat) ∧
    (placed .serial 0 0).phase.busy = true ∧ (placed .fault 0 0).phase = .fault := by decide

/-- One length for each cause. -/
theorem witness_LengthFaultEntry :
    (abcIdle.phase = .idle ∧ abcIdle.msgSize < (1025#64).toNat ∧ (1025#64).toNat < 2 ^ 61) ∧
    ((placed .done 0 0).phase = .done ∧ (placed .done 0 0).msgSize < (0x2000000000000000#64).toNat ∧
      2 ^ 61 ≤ (0x2000000000000000#64).toNat) := by decide

/-- A START from IDLE that enters FAULT. -/
theorem witness_OnlyStartRaisesLengthFault :
    abcIdle.phase ≠ .fault ∧ abcIdle.phase ≠ .bAdd ∧
    after (step { abcIdle with len := 1025, turns := [Turn.host (.writeCtrl 1)] }) (fun t => t.phase) = some .fault := by decide

/-- In FAULT: a step of the sequencer, a START, a write of `LEN`. -/
theorem witness_FaultLeftOnlyByReset :
    (placed .fault 0 0).phase = .fault ∧
    ([[], [Turn.host (.writeCtrl 1)], [Turn.host (.writeLen 3)]].map fun us =>
      (after (step { placed .fault 0 0 with turns := us, cause := .lenOverflow }) (fun t => t.status)))
      = [some 0x00000014, some 0x00000014, some 0x00000014] ∧
    (Turn.host (.writeCtrl 1)).reset = false ∧ (Turn.host (.writeLen 3)).reset = false := by decide

theorem witness_HostWritesDropped : (placed .pCopy 0 0).phase.busy = true ∧ (placed .serial 0 0).phase.busy = true ∧
    1023 < (placed .pCopy 0 0).msgSize := by decide

theorem witness_HostWritesPerformed :
    (placed .idle 0 0).phase = .idle ∧ (placed .done 0 0).phase = .done ∧ (placed .fault 0 0).phase = .fault ∧
    1023 < (placed .idle 0 0).msgSize ∧ (placed .idle 0 0).msgSize ≤ 1024 := by decide

theorem witness_HostReads :
    (placed .done 0 0).phase = .done ∧ (placed .idle 0 0).phase ≠ .done ∧ (placed .sExp 0 16).phase.busy = true ∧
    (placed .fault 0 0).phase = .fault ∧ 1023 < (placed .idle 0 0).msgSize ∧
    31 < digestSize ∧ digestSize ≤ 32 ∧ 1023 < (placed .sExp 0 16).msgSize := by decide

theorem witness_ReservedControlRefused : (2#32 ≠ 0 ∧ 2#32 ≠ 1) ∧ (0x80000001#32 ≠ 0 ∧ 0x80000001#32 ≠ 1) := by decide

/-- Steps that write `H`, `V`, `W`, `PAD`, `NBLK` and `DG`. -/
theorem witness_SequencerWritesOnly :
    (placed .hInit 0 0).turns = [] ∧ after (step (placed .hInit 0 0)) (fun t => t.h[0] ≠ 0) = some True ∧
    after (step (abcBlock .rCopy 0)) (fun t => t.v[0]) = some 0x6A09E667 ∧
    after (step (abcLoaded .sExp 17)) (fun t => t.w[17]) = some 0x000F0000 ∧
    after (step { abcIdle with phase := .pLen, plen := 56 }) (fun t => t.nblk) = some 1 := by
  refine ⟨rfl, congrArg some (eq_true (by decide)), by decide +kernel, by decide +kernel, by decide⟩

theorem witness_DigestChangesOnlyBySer :
    Turn.sequencer.reset = false ∧ Turn.sequencer.byHand = false ∧ (placed .serial 0 63).nextTurn = Turn.sequencer ∧
    (placed .serial 0 63).dg = [] ∧ after (step (placed .serial 0 63)) (fun t => t.dg.length) = some 32 := by
  refine ⟨rfl, rfl, rfl, rfl, by decide +kernel⟩

theorem witness_ParameterNeverChanges :
    after (step { abcIdle with turns := [Turn.resetOnly] }) (fun t => t.cfg.lmax.val) = some 1024 := by decide

theorem witness_MemoriesStayCanonical :
    abcIdle.msg.wf ∧ abcPad.wf ∧ after (step { abcIdle with phase := .pCopy }) (fun t => t.pad) =
      some [(0, 0x61), (1, 0x62), (2, 0x63)] := ⟨by decide, by decide, by decide⟩

/-- An engine in the middle of "abc", about to load its block, meets the invariant. -/
theorem inv_abcBlock : (abcBlock .bLoad 0).Inv where
  msgWf := by decide
  padWf := by decide
  dgWf := by decide
  msgBound := by decide
  padBound := by decide
  dgBound := by decide
  causeInFault := by decide
  lenFits := by decide
  plenCopied := by decide
  plenMarked := by decide
  plenZeroed := by decide
  plenFinal := by decide
  nblkFinal := by decide
  blkInRange := by decide
  blkLast := by decide
  indexLegal := by decide
  padWritten := fun _ => show ∀ a, a < 64 → (abcPad.read? a).isSome = true by decide
  plenWritten := fun _ => rfl
  nblkWritten := fun _ => rfl
  blkWritten := fun _ => rfl
  jWritten := fun _ => rfl
  hWritten := fun _ => rfl
  wExpanding := by decide
  wWritten := by decide
  vWritten := fun _ => rfl
  dgWritten := by decide
  noHand := by decide

theorem witness_InvariantKeptByStep :
    (abcBlock .bLoad 0).Inv ∧
    (after (step (abcBlock .bLoad 0)) (fun t => t.phase)) = some .sExp :=
  ⟨inv_abcBlock, by decide +kernel⟩

theorem witness_BusySequencerAlwaysSteps :
    (abcBlock .bLoad 0).Inv ∧ (abcBlock .bLoad 0).phase.busy = true :=
  ⟨inv_abcBlock, by decide⟩

theorem witness_StatusTakesFiveValues : (abcBlock .bLoad 0).Inv := inv_abcBlock

/-- The block of "abc" at BLK.LOAD: the operation due, and the phase of one clause; the other clauses' phases are taken at
one state each that differs from it in the phase. -/
theorem witness_SequencerReadsOnlyWritten :
    (abcBlock .bLoad 0).Inv ∧ (abcBlock .bLoad 0).phase = .bLoad ∧
    (abcBlock .bLoad 0).position.named = some .blkLoad ∧ Instr.blkLoad ≠ .padCopy ∧ Instr.blkLoad ≠ .padLen ∧
    (abcBlock .serial 63).phase = .serial ∧ (abcBlock .rStep 63).phase = .rStep ∧ (abcBlock .bAdd 63).phase = .bAdd :=
  ⟨inv_abcBlock, rfl, rfl, by decide, by decide, rfl, rfl, rfl⟩

/-- H.INIT writes `H` and `BLK`; the record shows both after it and neither before. -/
theorem witness_WritesAreRecorded :
    (placed .hInit 5 0).nextTurn.reset = false ∧ (placed .hInit 5 0).written.h = false ∧
    after (step (placed .hInit 5 0)) (fun t => (decide (t.blk ≠ 5), t.written.blk, t.written.h, t.written.v)) =
      some (true, true, true, false) := by
  refine ⟨rfl, rfl, by decide +kernel⟩

/-- The other clauses of `WritesAreRecorded`, each where no value changes: RND.COPY fed out of order with `V` equal to `H`; the
position writes of H.INIT with `BLK` 0, of BLK.LOAD with `J` 16; a host write of the `LEN` already held. And the last `J` that a
row of the schedule writes, and the first block that BLK.ADD leaves. -/
theorem witness_WritesAreRecorded_same_value :
    let fed := { placed .idle 0 0 with turns := [Turn.feed 0x200], written := { Written.nothing with h := true } }
    let host := { placed .idle 0 0 with turns := [Turn.host (.writeLen 0)] }
    (fed.nextTurn = Turn.feed 0x200 ∧ fed.position.opWord ≠ some 0x200 ∧ decodeOpw 0x200 = .ok .rndCopy) ∧
    after (step fed) (fun t => (decide (t.v = fed.v), t.written.v)) = some (true, true) ∧
    after (step (placed .hInit 0 0)) (fun t => (t.blk, t.written.blk)) = some (0, true) ∧
    after (step (placed .bLoad 0 16)) (fun t => (t.j, t.written.j)) = some (16, true) ∧
    (host.nextTurn = Turn.host (.writeLen 0) ∧ host.phase.busy = false) ∧
    after (step host) (fun t => (t.len, t.written.len)) = some (0, true) ∧
    after (step (placed .sExp 0 62)) (fun t => (t.j, t.written.j)) = some (63, true) ∧
    after (step { placed .bAdd 0 0 with nblk := 2 }) (fun t => (t.blk, t.written.blk)) = some (1, true) := by
  decide +kernel

/-- A step that records: SCH.EXP 16 records `W[16]` and no other word. -/
theorem witness_OnlyWritesAreRecorded :
    after (step (placed .sExp 0 16)) (fun t => (t.written.w[16], t.written.w[17], t.written.w[15], t.written.j)) =
      some (true, false, false, true) ∧ (placed .sExp 0 16).Performs (.schExp (BitVec.ofNat 6 16)) :=
  ⟨by decide +kernel, .inl ⟨.inl rfl, rfl⟩⟩

/-- BLK.ADD with `H` unwritten, and with everything written. -/
theorem witness_HandRunReadsOnlyWritten :
    decodeOpw 0x280 = .ok .blkAdd ∧ (placed .idle 0 0).position.opWord ≠ some 0x280 ∧
    (abcBlock .idle 0).position.opWord ≠ some 0x280 ∧ (placed .bAdd 0 0).position.opWord = some 0x280 ∧ (placed .idle 0 0).ReadsUnwritten .blkAdd ∧
    ¬ (abcBlock .idle 0).ReadsUnwritten .blkAdd ∧ (after (exec .blkAdd (placed .idle 0 0)) (fun _ => ())).isSome = true :=
  ⟨by decide, by decide, by decide, by decide, .inl rfl, (by rintro (h | h) <;> cases h), rfl⟩

theorem witness_FedTraceFollowsSequencer :
    { abcIdle with phase := .pCopy }.turns = [] ∧ { abcIdle with phase := .pCopy }.phase = .pCopy ∧
    { abcIdle with phase := .pCopy }.len.toNat ≤ abcIdle.msgSize ∧
    ((digestOps 1).filterMap operationWord?).length = 121 := by decide +kernel

theorem witness_HandRunAfterReset :
    decodeOpw 0x240 = .ok (.rndStep 0) ∧ Instr.rndStep 0 ≠ .hInit ∧ decodeOpw 0x140 = .ok .hInit ∧
    takeTurn ⟨true, .sequencer⟩ abcIdle = .next abcIdle.resetInput := ⟨by decide, by decide, by decide, rfl⟩

theorem witness_HostCannotDisturbInvocation :
    { abcBlock .bLoad 0 with turns := [Turn.host .readStatus] }.phase.busy = true ∧
    after (step { abcBlock .bLoad 0 with turns := [Turn.host .readStatus] }) (fun t => t.reply) =
      some (some (.status 0x00000001)) := by decide

/-- One block, which is the last; and the first of two. -/
theorem witness_BlockPassIsCompress :
    ((abcBlock .bLoad 0).turns = [] ∧ (abcBlock .bLoad 0).phase = .bLoad ∧
      (abcBlock .bLoad 0).blk.toNat + 1 = (abcBlock .bLoad 0).nblk.toNat ∧
      64 * (abcBlock .bLoad 0).nblk.toNat ≤ (abcBlock .bLoad 0).padSize) ∧
    ({ abcBlock .bLoad 0 with nblk := 2 }.blk.toNat + 1 < { abcBlock .bLoad 0 with nblk := 2 }.nblk.toNat ∧
      64 * { abcBlock .bLoad 0 with nblk := 2 }.nblk.toNat ≤ { abcBlock .bLoad 0 with nblk := 2 }.padSize) := by decide

/-- The first and the last of the 121 operations of "abc". -/
theorem witness_InvocationTrace :
    { abcIdle with phase := .pCopy }.turns = [] ∧ { abcIdle with phase := .pCopy }.len.toNat ≤ abcIdle.msgSize ∧
    0 < 6 + 115 * ((abcIdle.len.toNat + 8) / 64 + 1) ∧ 120 < 6 + 115 * ((abcIdle.len.toNat + 8) / 64 + 1) := by decide

/-- "abc" from IDLE, and the empty message from DONE. -/
theorem witness_InvocationComputesDigest :
    (abcIdle.phase = .idle ∧ abcIdle.len.toNat ≤ abcIdle.msgSize) ∧
    ((placed .done 0 63).phase = .done ∧ (placed .done 0 63).len.toNat ≤ (placed .done 0 63).msgSize) := by decide

/-- Each stop at the first length, count, block or index that meets it, `PAD` having 1088 bytes. -/
theorem witness_HandRunStops :
    abcIdle.msgSize < (1025#64).toNat ∧ (placed .pMark 0 0).padSize ≤ (1088#62).toNat ∧
    (63 < 64 ∧ ((1081#62).toNat + 63) % 64 = 56 ∧ (placed .pZero 0 0).padSize < (1081#62).toNat + 63) ∧
    (placed .pLen 0 0).padSize < (1081#62).toNat + 8 ∧ (placed .bLoad 0 0).padSize < 64 * (17#56).toNat + 64 ∧
    (15#6).toNat < 16 := by decide

end Sys2Proof.Tests
end

section
/-! Proofs of 00_scope.md's statements: the rotation (R11), the byte order (R13) and the parameter (R7, R38). -/

namespace Sys2Proof.Machine

/-! ## The right rotation (R11) -/

/-- The model's rotation is the library's, whose amount is taken modulo 32. -/
theorem rotr_eq_rotateRight (x : Word) {n : Nat} (hn : n < 32) : rotr x n = x.rotateRight n := by
  rw [rotr, BitVec.rotateRight_def, Nat.mod_eq_of_lt hn]

theorem rotr_getLsbD (x : Word) {n i : Nat} (hn : n < 32) (hi : i < 32) :
    (rotr x n).getLsbD i = x.getLsbD ((i + n) % 32) := by
  rw [rotr_eq_rotateRight x hn, BitVec.getLsbD_rotateRight_of_lt hn]
  by_cases hwrap : i < 32 - n
  · have hpos : (i + n) % 32 = n + i := by omega
    simp [hwrap, hpos]
  · have hpos : (i + n) % 32 = i - (32 - n) := by omega
    simp [hwrap, hi, hpos]

/-- The two halves of a rotation share no bit, so joining them is adding them, and the sum fits a word. -/
theorem rotr_toNat (x : Word) {n : Nat} (hn : n ≤ 32) :
    (rotr x n).toNat = x.toNat / 2 ^ n + x.toNat % 2 ^ n * 2 ^ (32 - n) := by
  have hsize : 2 ^ 32 = 2 ^ n * 2 ^ (32 - n) := by rw [← Nat.pow_add, Nat.add_sub_cancel' hn]
  have hlow : x.toNat / 2 ^ n < 2 ^ (32 - n) := Nat.div_lt_of_lt_mul (hsize ▸ x.isLt)
  have hhigh : x.toNat * 2 ^ (32 - n) % 2 ^ 32 = (x.toNat % 2 ^ n) <<< (32 - n) := by
    rw [hsize, Nat.mul_mod_mul_right, Nat.shiftLeft_eq]
  rw [rotr, BitVec.toNat_or, BitVec.toNat_ushiftRight, BitVec.toNat_shiftLeft, Nat.shiftLeft_eq,
    Nat.shiftRight_eq_div_pow, hhigh, Nat.or_comm, ← Nat.shiftLeft_add_eq_or_of_lt hlow, Nat.shiftLeft_eq,
    Nat.add_comm]

/-- Settles O23: the arithmetic form, already below `2^32`, and the bit form. -/
theorem rotationByArithmeticAndByBit : Obligations.RotationByArithmeticAndByBit := by
  intro x n _ hn
  refine ⟨?_, fun i hi => rotr_getLsbD x (by omega) hi⟩
  have hfits := (rotr x n).isLt
  rw [← rotr_toNat x (by omega), Nat.mod_eq_of_lt hfits]

/-! ## Words and bytes (R13) -/

/-- A word is `be32` of its four bytes. -/
theorem be32_byteOf (x : Word) : be32 (byteOf 0 x) (byteOf 1 x) (byteOf 2 x) (byteOf 3 x) = x := by
  apply BitVec.eq_of_toNat_eq
  have hx := x.isLt
  simp only [be32_toNat, byteOf_toNat]
  omega

/-- Settles O24: each conversion by the lemma that gives its value as a number. -/
theorem bigEndianConversions : Obligations.BigEndianConversions :=
  ⟨be32_toNat, fun x k _ => byteOf_toNat k x, fun x => (be32_byteOf x).symm, fun n k _ => lenByte_toNat k n⟩

/-! ## The parameter (R7, R38) -/

theorem execStart_cfg {s t : State} (h : execStart s = .next t) : t.cfg = s.cfg := by
  rcases execStart_cases s with ⟨_, _, e⟩ | ⟨_, _, _, e⟩ | ⟨_, _, e⟩ | ⟨_, e⟩
  all_goals
    obtain rfl : _ = t := Host.Outcome.next.inj (e.symm.trans h)
    rfl

theorem exec_cfg {i : Instr} {s t : State} (hi : i ≠ .start) (h : exec i s = .next t) : t.cfg = s.cfg := by
  obtain ⟨-, -, -, -, hcfg, -⟩ := exec_frame hi h
  exact hcfg

theorem sequencerTurn_cfg {s t : State} (h : sequencerTurn s = .next t) : t.cfg = s.cfg := by
  obtain ⟨-, rfl⟩ | ⟨i, u, hnamed, -, hexec, rfl⟩ := sequencerTurn_cases h
  · rfl
  · rw [State.advance_cfg, State.recordOperation_cfg, exec_cfg (Position.named_ne_start hnamed) hexec]

theorem hostAct_cfg {a : HostAction} {s t : State} (h : hostAct a s = .next t) : t.cfg = s.cfg := by
  obtain rfl | ⟨_, -, rfl⟩ | ⟨_, _, -, -, rfl⟩ | ⟨_, rfl⟩ | ⟨-, hstart⟩ := hostAct_cases h
  · rfl
  · rfl
  · rfl
  · rfl
  · exact execStart_cfg hstart

/-- Settles O42, by what a step can be: RESET, the sequencer's turn, a host action, or an operation out of order. -/
theorem parameterNeverChanges : Obligations.ParameterNeverChanges := by
  intro s t h
  obtain ⟨-, rfl⟩ | ⟨-, hseq⟩ | ⟨a, -, hact⟩ | ⟨w, i, u, -, -, -, hi, hexec, rfl⟩ := step_cases h
  · rw [State.resetInput_cfg, State.dropTurn_cfg]
  · rw [sequencerTurn_cfg hseq, State.dropTurn_cfg]
  · rw [hostAct_cfg hact, State.dropTurn_cfg]
  · rw [State.recordOperation_cfg, exec_cfg hi hexec, State.dropTurn_cfg]

end Sys2Proof.Machine
end

section
/-! Proofs of 10_state.md's statements: STATUS (R31), reset (R42), who writes which register (R20, R35), and the
invariant (R26, R28, R32, R87, R121, R165). -/

namespace Sys2Proof.Machine

/-! ## STATUS (R31, R32) -/

/-- The fields of `STATUS` share no bit, so joining them is adding them. -/
theorem statusWord_toNat (p : Phase) (c : Cause) :
    (statusWord p c).toNat =
      p.busy.toNat + 2 * (decide (p = .done)).toNat + 4 * (decide (p = .fault)).toNat + 16 * c.code.toNat := by
  have hjoin (x : Nat) (b : Bool) : x <<< 1 ||| b.toNat = 2 * x + b.toNat := by
    rw [← Nat.shiftLeft_add_eq_or_of_lt (by simpa using b.toNat_lt), Nat.shiftLeft_eq, Nat.mul_comm]
  have hreserved : (0#1).toNat = false.toNat := rfl
  simp only [statusWord, BitVec.toNat_append, BitVec.toNat_ofBool, hreserved, hjoin]
  simp
  omega

theorem Phase.busy_toNat (p : Phase) :
    p.busy.toNat = if 1 ≤ p.code.toNat ∧ p.code.toNat ≤ 11 then 1 else 0 := by
  unfold Phase.busy; split <;> simp [*]

theorem Phase.code_eq_12_iff (p : Phase) : p.code.toNat = 12 ↔ p = .done := by cases p <;> decide

theorem Phase.code_eq_13_iff (p : Phase) : p.code.toNat = 13 ↔ p = .fault := by cases p <;> decide

/-- Settles O34: the sum of the fields, DONE and FAULT read off the phase's code. -/
theorem statusFields : Obligations.StatusFields := by
  intro s
  rw [State.status_eq, statusWord_toNat, Phase.busy_toNat]
  simp only [Phase.code_eq_12_iff, Phase.code_eq_13_iff, Bool.toNat, Bool.cond_decide]
  split <;> split <;> split <;> rfl

/-- The phases as R31 sees them: one resting in IDLE, the busy ones, DONE, FAULT. -/
theorem Phase.cases_by_status (p : Phase) : p = .idle ∨ p.busy = true ∨ p = .done ∨ p = .fault := by cases p <;> decide

theorem statusWord_of_busy {p : Phase} (hp : p.busy = true) : statusWord p .none = 0x00000001 := by
  apply BitVec.eq_of_toNat_eq
  have hdone : p ≠ .done := by rintro rfl; cases hp
  have hfault : p ≠ .fault := by rintro rfl; cases hp
  simp [statusWord_toNat, hp, hdone, hfault, Cause.code]

/-- Settles O35: outside FAULT the invariant leaves no cause, in FAULT one of two. -/
theorem statusTakesFiveValues : Obligations.StatusTakesFiveValues := by
  intro s hinv
  rw [State.status_eq]
  have hcause (h : s.phase ≠ .fault) : s.cause = .none := hinv.causeInFault.2 h
  obtain hp | hp | hp | hp := s.phase.cases_by_status
  · rw [hcause (by simp [hp]), hp]; decide
  · rw [hcause (by rintro h; rw [h] at hp; cases hp), statusWord_of_busy hp]; decide
  · rw [hcause (by simp [hp]), hp]; decide
  · have hne : s.cause ≠ .none := fun h => hinv.causeInFault.1 h hp
    rw [hp]
    cases hc : s.cause with
    | none => exact absurd hc hne
    | lenOverflow => decide
    | lenCapacity => decide

/-! ## Reset (R42) -/

/-- Settles O33: each clause is a field of the reset state. -/
theorem resetStateAsSpecified : Obligations.ResetStateAsSpecified :=
  ⟨rfl, rfl, by rw [State.status_eq]; decide, rfl, rfl, rfl, rfl⟩

/-! ## Which operation writes which register or memory (R20) -/

/-- The phase that names an operation (R27, R70); START, which no phase names, is given IDLE. -/
def duePhase : Instr → Phase
  | .padCopy   => .pCopy
  | .padMark   => .pMark
  | .padZero   => .pZero
  | .padLen    => .pLen
  | .hInit     => .hInit
  | .blkLoad   => .bLoad
  | .schExp _  => .sExp
  | .rndCopy   => .rCopy
  | .rndStep _ => .rStep
  | .blkAdd    => .bAdd
  | .ser       => .serial
  | .start     => .idle

theorem Position.phase_of_named {p : Position} {i : Instr} (h : p.named = some i) : p.phase = duePhase i := by
  obtain ⟨ph, blk, j⟩ := p
  cases ph <;> simp [Position.named] at h <;> subst h <;> rfl

/-- R20's column 'written by', for the registers and memories an operation can change at all. -/
theorem exec_changes_only {i : Instr} {s u : State} (hi : i ≠ .start) (h : exec i s = .next u) :
    (u.h ≠ s.h → duePhase i = .hInit ∨ duePhase i = .bAdd) ∧
    (u.v ≠ s.v → duePhase i = .rCopy ∨ duePhase i = .rStep) ∧
    (u.w ≠ s.w → duePhase i = .bLoad ∨ duePhase i = .sExp) ∧
    (u.pad ≠ s.pad ∨ u.plen ≠ s.plen →
      duePhase i = .pCopy ∨ duePhase i = .pMark ∨ duePhase i = .pZero ∨ duePhase i = .pLen) ∧
    (u.nblk ≠ s.nblk → duePhase i = .pLen) ∧
    (u.dg ≠ s.dg → duePhase i = .serial) := by
  cases i with
  | padCopy => obtain ⟨-, rfl⟩ := execPadCopy_eq_next.1 h; simp [duePhase]
  | padMark => obtain ⟨-, rfl⟩ := execPadMark_eq_next.1 h; simp [duePhase]
  | padZero => obtain ⟨-, rfl⟩ := execPadZero_eq_next.1 h; simp [duePhase]
  | padLen => obtain ⟨-, rfl⟩ := execPadLen_eq_next.1 h; simp [duePhase]
  | hInit => obtain rfl := execHInit_eq_next.1 h; simp [duePhase]
  | blkLoad => obtain ⟨-, rfl⟩ := execBlkLoad_eq_next.1 h; simp [duePhase]
  | schExp j => obtain ⟨-, rfl⟩ := execSchExp_eq_next.1 h; simp [duePhase]
  | rndCopy => obtain rfl := execRndCopy_eq_next.1 h; simp [duePhase]
  | rndStep j => obtain rfl := execRndStep_eq_next.1 h; simp [duePhase]
  | blkAdd => obtain rfl := execBlkAdd_eq_next.1 h; simp [duePhase]
  | ser => obtain rfl := execSer_eq_next.1 h; simp [duePhase]
  | start => exact absurd rfl hi

/-- Settles O40: the operation performed is the one the phase names, and the position write touches none of these. -/
theorem sequencerWritesOnly : Obligations.SequencerWritesOnly := by
  intro s t hturns hstep
  rw [step_of_nil hturns] at hstep
  obtain ⟨-, rfl⟩ | ⟨i, u, hnamed, -, hexec, rfl⟩ := sequencerTurn_cases hstep
  · simp
  · have hi := Position.named_ne_start hnamed
    have hphase : s.phase = duePhase i := Position.phase_of_named hnamed
    obtain ⟨-, hlen, hmsg, hcause, hcfg, hepoch, -, hreply, -⟩ := exec_frame hi hexec
    obtain ⟨hh, hv, hw, hpad, hnblk, hdg⟩ := exec_changes_only hi hexec
    rw [hphase]
    exact ⟨hh, hv, hw, hpad, hnblk, hdg, hlen, hmsg, hcause, hcfg, hepoch, hreply⟩

theorem sequencerTurn_dg {s t : State} (h : sequencerTurn s = .next t) (hdg : t.dg ≠ s.dg) : s.phase = .serial := by
  obtain ⟨-, rfl⟩ | ⟨i, u, hnamed, -, hexec, rfl⟩ := sequencerTurn_cases h
  · exact absurd rfl hdg
  · obtain ⟨-, -, -, -, -, hser⟩ := exec_changes_only (Position.named_ne_start hnamed) hexec
    exact (Position.phase_of_named hnamed).trans (hser hdg)

theorem execStart_dg {s t : State} (h : execStart s = .next t) : t.dg = s.dg := by
  rcases execStart_cases s with ⟨_, _, e⟩ | ⟨_, _, _, e⟩ | ⟨_, _, e⟩ | ⟨_, e⟩
  all_goals
    obtain rfl : _ = t := Host.Outcome.next.inj (e.symm.trans h)
    rfl

theorem hostAct_dg {a : HostAction} {s t : State} (h : hostAct a s = .next t) : t.dg = s.dg := by
  obtain rfl | ⟨_, -, rfl⟩ | ⟨_, _, -, -, rfl⟩ | ⟨_, rfl⟩ | ⟨-, hstart⟩ := hostAct_cases h
  · rfl
  · rfl
  · rfl
  · rfl
  · exact execStart_dg hstart

/-- Settles O41: of what a step can be only the sequencer's own turn remains, and of its operations only SER writes `DG`. -/
theorem digestChangesOnlyBySer : Obligations.DigestChangesOnlyBySer := by
  intro s t hstep hreset hhand hdg
  have not_fed {w : BitVec 10} (hfeed : s.nextTurn = Turn.feed w) : False := by rw [hfeed] at hhand; cases hhand
  obtain ⟨hr, -⟩ | ⟨hacts, hseq⟩ | ⟨a, -, hact⟩ | ⟨w, i, u, hfeed, -⟩ := step_cases hstep
  · rw [hreset] at hr; cases hr
  · obtain hturn | ⟨w, hfeed, -⟩ := hacts
    · exact ⟨sequencerTurn_dg (s := s.dropTurn) hseq hdg, hturn⟩
    · exact (not_fed hfeed).elim
  · exact absurd (hostAct_dg hact) hdg
  · exact (not_fed hfeed).elim

end Sys2Proof.Machine
end

section
/-! The invariant (R26, R28, R32, R87, R121, R165): what it says in each phase, and that reset and the host's actions
keep it. -/

namespace Sys2Proof.Machine

/-! ## The invariant, phase by phase -/

/-- The part of the invariant that reads the same in every phase, the tie of the cause to FAULT included. -/
structure State.Framed (s : State) : Prop where
  msgWf        : s.msg.wf
  padWf        : s.pad.wf
  dgWf         : s.dg.wf
  msgBound     : ∀ c ∈ s.msg, c.1 < s.msgSize
  padBound     : ∀ c ∈ s.pad, c.1 < s.padSize
  dgBound      : ∀ c ∈ s.dg, c.1 < digestSize
  causeInFault : s.cause = .none ↔ s.phase ≠ .fault
  noHand       : ∀ t ∈ s.turns, t.byHand = false

/-- An accepted length, and a padded buffer of which the first `n` bytes are written and counted by `PLEN`. -/
structure State.PadUpTo (s : State) (n : Nat) : Prop where
  lenFits     : s.len.toNat ≤ s.msgSize
  plen_eq     : s.plen.toNat = n
  plenWritten : s.written.plen = true
  padWritten  : ∀ a, a < s.plen.toNat → (s.pad.read? a).isSome = true

/-- The padder is done: the buffer holds `NBLK` whole blocks (R87). -/
structure State.Padded (s : State) : Prop extends s.PadUpTo (64 * s.nblk.toNat) where
  nblk_eq     : s.nblk.toNat = (s.len.toNat + 8) / 64 + 1
  nblkWritten : s.written.nblk = true

/-- Block `BLK` of a padded buffer is being processed. -/
structure State.InBlock (s : State) : Prop extends s.Padded where
  blkInRange : s.blk.toNat < s.nblk.toNat
  blkWritten : s.written.blk = true
  hWritten   : s.written.h = true

/-- The first `n` schedule words are written. -/
def Written.Scheduled (m : Written) (n : Nat) : Prop := ∀ k (hk : k < 64), k < n → m.w[k] = true

/-- The schedule of the block is written up to word `J`, the one due. -/
structure State.Expanding (s : State) : Prop extends s.InBlock where
  indexLegal : 16 ≤ s.j.toNat
  jWritten   : s.written.j = true
  scheduled  : s.written.Scheduled s.j.toNat

/-- The schedule of the block is complete, and the rounds are under way. -/
structure State.Rounding (s : State) : Prop extends s.InBlock where
  jWritten  : s.written.j = true
  vWritten  : s.written.v = true
  scheduled : s.written.Scheduled 64

/-- What the invariant says of a state in phase `p`, beside `State.Framed`. -/
def State.InPhase (s : State) : Phase → Prop
  | .idle | .fault => True
  | .pCopy  => s.len.toNat ≤ s.msgSize
  | .pMark  => s.PadUpTo s.len.toNat
  | .pZero  => s.PadUpTo (s.len.toNat + 1)
  | .pLen   => s.PadUpTo (64 * ((s.len.toNat + 8) / 64) + 56)
  | .hInit  => s.Padded
  | .bLoad  => s.InBlock
  | .sExp   => s.Expanding
  | .rCopy  => s.InBlock ∧ s.written.Scheduled 64
  | .rStep  => s.Rounding
  | .bAdd   => s.InBlock ∧ s.written.v = true
  | .serial => s.Padded ∧ s.blk.toNat + 1 = s.nblk.toNat ∧ s.written.h = true
  | .done   => ∀ a, a < digestSize → (s.dg.read? a).isSome = true

/-! ### From `State.Inv` to its phases -/

theorem Phase.busy_of_counting {p : Phase} (h : p.counting = true) : p.busy = true := by
  cases p <;> revert h <;> decide

/-- Where `BLK` names a block, every other part of an invocation is under way too. -/
theorem Phase.of_inBlock {p : Phase} (h : p.inBlock = true) :
    p.counting = true ∧ p.padded = true ∧ p.hashing = true := by
  cases p <;> revert h <;> decide

section
variable {s : State} (h : s.Inv)
include h

theorem State.Inv.framed : s.Framed := { h with }

theorem State.Inv.padUpTo {n : Nat} (hp : s.phase.counting = true) (hn : s.plen.toNat = n) : s.PadUpTo n :=
  ⟨h.lenFits (Phase.busy_of_counting hp), hn, h.plenWritten hp, h.padWritten hp⟩

theorem State.Inv.padded (hc : s.phase.counting = true) (hp : s.phase.padded = true) : s.Padded :=
  ⟨h.padUpTo hc (h.plenFinal hp), h.nblkFinal hp, h.nblkWritten hp⟩

theorem State.Inv.inBlock (hb : s.phase.inBlock = true) : s.InBlock := by
  obtain ⟨hc, hp, hh⟩ := Phase.of_inBlock hb
  exact ⟨h.padded hc hp, h.blkInRange hb, h.blkWritten hb, h.hWritten hh⟩

theorem State.Inv.inPhase : s.InPhase s.phase := by
  cases hp : s.phase with
  | idle => trivial
  | fault => trivial
  | pCopy => exact h.lenFits (hp ▸ rfl)
  | pMark => exact h.padUpTo (hp ▸ rfl) (h.plenCopied hp)
  | pZero => exact h.padUpTo (hp ▸ rfl) (h.plenMarked hp)
  | pLen => exact h.padUpTo (hp ▸ rfl) (by have := h.plenZeroed hp; omega)
  | hInit => exact h.padded (hp ▸ rfl) (hp ▸ rfl)
  | bLoad => exact h.inBlock (hp ▸ rfl)
  | sExp => exact ⟨h.inBlock (hp ▸ rfl), h.indexLegal hp, h.jWritten (.inl hp), h.wExpanding hp⟩
  | rCopy => exact ⟨h.inBlock (hp ▸ rfl), fun k hk _ => h.wWritten (.inl hp) k hk⟩
  | rStep =>
    exact ⟨h.inBlock (hp ▸ rfl), h.jWritten (.inr hp), h.vWritten (.inl hp), fun k hk _ => h.wWritten (.inr hp) k hk⟩
  | bAdd => exact ⟨h.inBlock (hp ▸ rfl), h.vWritten (.inr hp)⟩
  | serial => exact ⟨h.padded (hp ▸ rfl) (hp ▸ rfl), h.blkLast hp, h.hWritten (hp ▸ rfl)⟩
  | done => exact h.dgWritten hp

end

/-! ### From the phases back to `State.Inv` -/

section
variable {s : State} {p : Phase} (h : s.InPhase p)
include h

theorem State.InPhase.inBlock (hp : p.inBlock = true) : s.InBlock := by
  cases p with
  | bLoad => exact h
  | sExp | rStep => exact h.toInBlock
  | rCopy | bAdd => exact h.1
  | _ => cases hp

theorem State.InPhase.padded (hp : p.padded = true) : s.Padded := by
  cases p with
  | hInit => exact h
  | serial => exact h.1
  | bLoad | sExp | rCopy | rStep | bAdd => exact (h.inBlock rfl).toPadded
  | _ => cases hp

theorem State.InPhase.padUpTo (hp : p.counting = true) : s.PadUpTo s.plen.toNat := by
  cases p with
  | pMark | pZero | pLen => exact { h with plen_eq := rfl }
  | hInit | bLoad | sExp | rCopy | rStep | bAdd | serial => exact { h.padded rfl with plen_eq := rfl }
  | _ => cases hp

theorem State.InPhase.lenFits (hp : p.busy = true) : s.len.toNat ≤ s.msgSize := by
  cases p with
  | pCopy => exact h
  | idle | done | fault => cases hp
  | _ => exact (h.padUpTo rfl).lenFits

theorem State.InPhase.hWritten (hp : p.hashing = true) : s.written.h = true := by
  cases p with
  | serial => exact h.2.2
  | bLoad | sExp | rCopy | rStep | bAdd => exact (h.inBlock rfl).hWritten
  | _ => cases hp

end

theorem State.inv_of_inPhase {s : State} (hf : s.Framed) (hs : s.InPhase s.phase) : s.Inv := by
  have at_phase {p : Phase} (hp : s.phase = p) : s.InPhase p := hp ▸ hs
  exact { hf with
    lenFits := hs.lenFits
    plenCopied := fun hp => (at_phase hp).plen_eq
    plenMarked := fun hp => (at_phase hp).plen_eq
    plenZeroed := fun hp => by have := (at_phase hp).plen_eq; omega
    plenFinal := fun hp => (hs.padded hp).plen_eq
    nblkFinal := fun hp => (hs.padded hp).nblk_eq
    blkInRange := fun hp => (hs.inBlock hp).blkInRange
    blkLast := fun hp => (at_phase hp).2.1
    indexLegal := fun hp => (at_phase hp).indexLegal
    padWritten := fun hp => (hs.padUpTo hp).padWritten
    dgWritten := at_phase
    plenWritten := fun hp => (hs.padUpTo hp).plenWritten
    nblkWritten := fun hp => (hs.padded hp).nblkWritten
    blkWritten := fun hp => (hs.inBlock hp).blkWritten
    jWritten := fun hp => hp.elim (fun hp => (at_phase hp).jWritten) (fun hp => (at_phase hp).jWritten)
    hWritten := hs.hWritten
    wExpanding := fun hp => (at_phase hp).scheduled
    wWritten := fun hp k hk => hp.elim (fun hp => (at_phase hp).2 k hk hk) (fun hp => (at_phase hp).scheduled k hk hk)
    vWritten := fun hp => hp.elim (fun hp => (at_phase hp).vWritten) (fun hp => (at_phase hp).2) }

theorem State.inv_iff {s : State} : s.Inv ↔ s.Framed ∧ s.InPhase s.phase :=
  ⟨fun h => ⟨h.framed, h.inPhase⟩, fun ⟨hf, hs⟩ => State.inv_of_inPhase hf hs⟩

/-! ## Reset, and the turn taken off the list -/

/-- A state at rest in IDLE with no byte written has nothing more to keep. -/
theorem State.inv_of_idle {s : State} (hp : s.phase = .idle) (hc : s.cause = .none) (hm : s.msg = []) (hpad : s.pad = [])
    (hd : s.dg = []) (ht : ∀ t ∈ s.turns, t.byHand = false) : s.Inv := by
  refine State.inv_iff.2 ⟨?_, by rw [hp]; trivial⟩
  constructor <;> simp_all [Memory.wf]

/-- Settles O44: the reset state is at rest, with no byte written and no turn to come. -/
theorem invariantAtReset : Obligations.InvariantAtReset :=
  State.inv_of_idle rfl rfl rfl rfl rfl (by simp [State.reset])

theorem State.Inv.resetInput {s : State} (h : s.Inv) : s.resetInput.Inv :=
  State.inv_of_idle rfl rfl rfl rfl rfl h.noHand

theorem State.Inv.dropTurn {s : State} (h : s.Inv) : s.dropTurn.Inv :=
  { h with noHand := fun t ht => h.noHand t (List.mem_of_mem_tail ht) }

theorem State.Inv.nextTurn_byHand {s : State} (h : s.Inv) : s.nextTurn.byHand = false := by
  cases ht : s.turns with
  | nil => rw [nextTurn_of_nil ht]; rfl
  | cons t rest => rw [nextTurn_of_cons ht]; exact h.noHand t (by simp [ht])

/-! ## The host's actions -/

/-- Outside BUSY the invariant does not depend on `LEN` (it binds a running invocation only). -/
theorem State.Inv.writeLen {s : State} (h : s.Inv) (hb : s.phase.busy = false) (n : BitVec 64) :
    ({ s with len := n, written := { s.written with len := true } } : State).Inv := by
  obtain ⟨hf, hs⟩ := State.inv_iff.1 h
  refine State.inv_iff.2 ⟨{ hf with }, ?_⟩
  change State.InPhase _ s.phase
  obtain hp | hp | hp := Phase.busy_false_iff.1 hb
  all_goals
    rw [hp] at hs ⊢
    exact hs

theorem State.Inv.writeMsg {s : State} (h : s.Inv) {k : Nat} (hk : k < s.msgSize) (b : Byte) :
    ({ s with msg := s.msg.store k [b] } : State).Inv :=
  { h with
    msgWf := Memory.store_wf h.msgWf _ _
    msgBound := Memory.store_below h.msgBound (inside_iff.2 (.inr hk)) }

/-- START keeps the invariant: both faults record their cause, and an accepted length fits `MSG` (R120, R121). -/
theorem execStart_keeps_inv {s t : State} (h : s.Inv) (he : execStart s = .next t) : t.Inv := by
  obtain ⟨hf, -⟩ := State.inv_iff.1 h
  have faulted {c : Cause} (hc : c ≠ .none) : (s.raiseLengthFault c).Inv :=
    State.inv_iff.2 ⟨{ hf with causeInFault := by simp [hc] }, trivial⟩
  obtain ⟨-, -, e⟩ | ⟨-, -, -, e⟩ | ⟨-, hlen, e⟩ | ⟨-, e⟩ := execStart_cases s
  all_goals obtain rfl := Host.Outcome.next.inj (e.symm.trans he)
  · exact faulted (by simp)
  · exact faulted (by simp)
  · exact State.inv_iff.2 ⟨{ hf with causeInFault := by simp }, hlen⟩
  · exact h

theorem hostAct_keeps_inv {a : HostAction} {s t : State} (h : s.Inv) (he : hostAct a s = .next t) : t.Inv := by
  obtain rfl | ⟨n, hb, rfl⟩ | ⟨k, b, -, hk, rfl⟩ | ⟨r, rfl⟩ | ⟨-, hstart⟩ := hostAct_cases he
  · exact h
  · exact h.writeLen hb n
  · exact h.writeMsg hk b
  · exact { h with }
  · exact execStart_keeps_inv h hstart

end Sys2Proof.Machine
end

section
/-! The sequencer's turn keeps the invariant, and so every step does (R87, R119, R122, R142). -/

namespace Sys2Proof.Machine

/-! ## The sequencer's turn: memories and cause -/

/-- No operation stores beyond the ends of `PAD` and `DG` (R142). -/
theorem exec_keeps_bounds {i : Instr} {s u : State} (hi : i ≠ .start) (he : exec i s = .next u)
    (hpad : ∀ c ∈ s.pad, c.1 < s.padSize) (hdg : ∀ c ∈ s.dg, c.1 < digestSize) :
    (∀ c ∈ u.pad, c.1 < s.padSize) ∧ ∀ c ∈ u.dg, c.1 < digestSize := by
  cases i with
  | padCopy =>
    obtain ⟨hin, rfl⟩ := execPadCopy_eq_next.1 he
    have hsize := s.msgSize_add_le_padSize
    rw [inside_iff] at hin
    exact ⟨Memory.store_below hpad (inside_iff.2 (by rw [State.message_length]; omega)), hdg⟩
  | padMark => obtain ⟨hin, rfl⟩ := execPadMark_eq_next.1 he; exact ⟨Memory.store_below hpad hin, hdg⟩
  | padZero =>
    obtain ⟨hin, rfl⟩ := execPadZero_eq_next.1 he
    exact ⟨Memory.store_below hpad (by rwa [List.length_replicate]), hdg⟩
  | padLen => obtain ⟨hin, rfl⟩ := execPadLen_eq_next.1 he; exact ⟨Memory.store_below hpad hin, hdg⟩
  | hInit => obtain rfl := execHInit_eq_next.1 he; exact ⟨hpad, hdg⟩
  | blkLoad => obtain ⟨-, rfl⟩ := execBlkLoad_eq_next.1 he; exact ⟨hpad, hdg⟩
  | schExp j => obtain ⟨-, rfl⟩ := execSchExp_eq_next.1 he; exact ⟨hpad, hdg⟩
  | rndCopy => obtain rfl := execRndCopy_eq_next.1 he; exact ⟨hpad, hdg⟩
  | rndStep j => obtain rfl := execRndStep_eq_next.1 he; exact ⟨hpad, hdg⟩
  | blkAdd => obtain rfl := execBlkAdd_eq_next.1 he; exact ⟨hpad, hdg⟩
  | ser =>
    obtain rfl := execSer_eq_next.1 he
    have hin : inside 0 (digestBytes s.h).length digestSize = true := by rw [digestBytes_length]; rfl
    exact ⟨hpad, Memory.store_below hdg hin⟩
  | start => exact absurd rfl hi

theorem State.padSize_congr {s t : State} (h : t.cfg = s.cfg) : t.padSize = s.padSize := by
  unfold State.padSize; rw [h]

theorem State.msgSize_congr {s t : State} (h : t.cfg = s.cfg) : t.msgSize = s.msgSize := by
  unfold State.msgSize; rw [h]

/-- The operation due and the position write keep the memories canonical and in bounds, and never enter FAULT. -/
theorem State.Inv.framed_advance {i : Instr} {s u : State} (h : s.Inv) (hnamed : s.position.named = some i)
    (he : exec i s = .next u) : (u.recordOperation i).advance.Framed := by
  have hi := Position.named_ne_start hnamed
  have hphase : s.phase = duePhase i := Position.phase_of_named hnamed
  obtain ⟨hpos, -, hmsg, hcause, hcfg, -, hturns, -, -⟩ := exec_frame hi he
  obtain ⟨msgWf, padWf, dgWf⟩ := exec_keeps_wf hi he h.msgWf h.padWf h.dgWf
  obtain ⟨padBound, dgBound⟩ := exec_keeps_bounds hi he h.padBound h.dgBound
  have not_fault : s.phase ≠ .fault := by rw [hphase]; cases i <;> simp [duePhase]
  have in_range (hp : s.phase = .bAdd) : s.blk.toNat < u.nblk.toNat := by
    rw [exec_nblk hi (by rintro rfl; rw [hphase] at hp; cases hp) he]
    exact h.blkInRange (hp ▸ rfl)
  have not_fault' : (u.position.next u.nblk).phase ≠ .fault := by
    rw [hpos]; exact Position.next_phase_ne_fault not_fault in_range
  refine ⟨msgWf, padWf, dgWf, ?_, ?_, dgBound, ?_, ?_⟩
  · rw [State.msgSize_congr (t := (u.recordOperation i).advance) hcfg, State.advance_msg, State.recordOperation_msg, hmsg]
    exact h.msgBound
  · rw [State.padSize_congr (t := (u.recordOperation i).advance) hcfg]
    exact padBound
  · exact iff_of_true (hcause.trans (h.causeInFault.2 not_fault)) not_fault'
  · rw [State.advance_turns, State.recordOperation_turns, hturns]
    exact h.noHand

/-! ## The sequencer's turn: the rows of R122 -/

/-- What the invariant says of a state in its own phase. -/
def State.Phased (s : State) : Prop := s.InPhase s.phase

/-- `PHASE` itself is no part of what the invariant says in a phase. -/
theorem State.InPhase.phased_at {s : State} {p : Phase} (h : s.InPhase p) : ({ s with phase := p } : State).Phased := by
  cases p with
  | idle | fault => trivial
  | pCopy | done => exact h
  | pMark | pZero | pLen | hInit | bLoad | sExp | rStep => exact { h with }
  | rCopy | bAdd => obtain ⟨hblock, hmore⟩ := h; exact ⟨{ hblock with }, hmore⟩
  | serial => obtain ⟨hpadded, hmore⟩ := h; exact ⟨{ hpadded with }, hmore⟩

/-- A row of R122 that writes `PHASE` alone. -/
theorem State.InPhase.advance {s : State} {q : Phase} (h : s.InPhase q)
    (hrow : s.position.next s.nblk = { s.position with phase := q })
    (hp : ¬(s.phase = .hInit ∨ s.phase = .bLoad ∨ s.phase = .rCopy)) : s.advance.Phased := by
  have hadvance : s.advance = { s with phase := q } := by
    simp only [not_or] at hp
    simp [State.advance, hrow, Written.byPositionWrite, State.atPosition, hp]
  rw [hadvance]
  exact h.phased_at

section
variable {s : State}

theorem State.Padded.advance_of_hInit (h : s.Padded) (hp : s.phase = .hInit) (hh : s.written.h = true) :
    s.advance.Phased := by
  have hadvance : s.advance = { s with phase := .bLoad, blk := 0, written := { s.written with blk := true } } := by
    simp [State.advance, Position.next, Written.byPositionWrite, State.atPosition, hp]
  have hrange : 0 < s.nblk.toNat := by have := h.nblk_eq; omega
  rw [hadvance]
  change State.InPhase _ .bLoad
  exact { h with blkInRange := hrange, blkWritten := rfl, hWritten := hh }

theorem State.InBlock.advance_of_bLoad (h : s.InBlock) (hp : s.phase = .bLoad) (hw : s.written.Scheduled 16) :
    s.advance.Phased := by
  have hadvance : s.advance = { s with phase := .sExp, j := 16, written := { s.written with j := true } } := by
    simp [State.advance, Position.next, Written.byPositionWrite, State.atPosition, hp]
  rw [hadvance]
  change State.InPhase _ .sExp
  exact { h with indexLegal := le_refl 16, jWritten := rfl, scheduled := hw }

/-- Inside the two loops the index moves on by one. -/
theorem State.advance_of_index (hp : s.phase = .sExp ∨ s.phase = .rStep) (hj : s.j.toNat < 63) :
    s.advance = { s with j := s.j + 1, written := { s.written with j := true } } := by
  obtain hp | hp := hp <;> simp [State.advance, Position.next, Written.byPositionWrite, State.atPosition, hp, hj]

theorem State.InBlock.advance_of_sExp (h : s.InBlock) (hp : s.phase = .sExp) (hj : 16 ≤ s.j.toNat)
    (hw : s.written.Scheduled (s.j.toNat + 1)) : s.advance.Phased := by
  by_cases hlast : s.j.toNat < 63
  · have hnext : (s.j + 1).toNat = s.j.toNat + 1 := by rw [BitVec.toNat_add]; simp; omega
    rw [State.advance_of_index (.inl hp) hlast]
    change State.InPhase _ s.phase
    rw [hp]
    exact { h with indexLegal := by rw [hnext]; omega, jWritten := rfl, scheduled := by rwa [hnext] }
  · have hj63 : s.j.toNat = 63 := by have := s.j.isLt; omega
    refine State.InPhase.advance (q := .rCopy) ⟨h, ?_⟩ (by simp [Position.next, hp, hlast]) (by simp [hp])
    rwa [hj63] at hw

theorem State.InBlock.advance_of_rCopy (h : s.InBlock) (hp : s.phase = .rCopy) (hw : s.written.Scheduled 64)
    (hv : s.written.v = true) : s.advance.Phased := by
  have hadvance : s.advance = { s with phase := .rStep, j := 0, written := { s.written with j := true } } := by
    simp [State.advance, Position.next, Written.byPositionWrite, State.atPosition, hp]
  rw [hadvance]
  change State.InPhase _ .rStep
  exact { h with jWritten := rfl, vWritten := hv, scheduled := hw }

theorem State.Rounding.advance_of_rStep (h : s.Rounding) (hp : s.phase = .rStep) : s.advance.Phased := by
  by_cases hlast : s.j.toNat < 63
  · rw [State.advance_of_index (.inr hp) hlast]
    change State.InPhase _ s.phase
    rw [hp]
    exact { h with jWritten := rfl }
  · exact State.InPhase.advance (q := .bAdd) ⟨h.toInBlock, h.vWritten⟩ (by simp [Position.next, hp, hlast]) (by simp [hp])

/-- BLK.ADD goes on to the next block, and after the last to SER. -/
theorem State.InBlock.advance_of_bAdd (h : s.InBlock) (hp : s.phase = .bAdd) : s.advance.Phased := by
  by_cases hmore : s.blk.toNat + 1 < s.nblk.toNat
  · have hadvance : s.advance = { s with phase := .bLoad, blk := s.blk + 1, written := { s.written with blk := true } } := by
      simp [State.advance, Position.next, Written.byPositionWrite, State.atPosition, hp, hmore]
    have hnext : (s.blk + 1).toNat = s.blk.toNat + 1 := by
      have := s.nblk.isLt; rw [BitVec.toNat_add]; simp; omega
    rw [hadvance]
    change State.InPhase _ .bLoad
    exact { h with blkInRange := hnext ▸ hmore, blkWritten := rfl }
  · have hlast : s.blk.toNat + 1 = s.nblk.toNat := by have := h.blkInRange; omega
    exact State.InPhase.advance (q := .serial) ⟨h.toPadded, hlast, h.hWritten⟩
      (by simp [Position.next, hp, hlast]) (by simp [hp])

end

/-! ## The sequencer's turn: operation by operation -/

/-- The padder's append moves `PLEN` on, over bytes that are then written (R89 to R91). -/
theorem State.PadUpTo.append {s : State} {n : Nat} (h : s.PadUpTo n) {bytes : List Byte}
    (hin : inside s.plen.toNat bytes.length s.padSize = true) {m : Written} (hm : m.plen = true) :
    ({ s with pad := s.pad.store s.plen.toNat bytes, plen := s.plen + BitVec.ofNat 62 bytes.length, written := m } :
      State).PadUpTo (n + bytes.length) where
  lenFits := h.lenFits
  plen_eq := by rw [State.plen_add hin, h.plen_eq]
  plenWritten := hm
  padWritten a ha := by
    rw [State.plen_add hin] at ha
    rw [Memory.isSome_store, Bool.or_eq_true, decide_eq_true_eq]
    by_cases hold : a < s.plen.toNat
    · exact .inr (h.padWritten a hold)
    · exact .inl ⟨by omega, ha⟩

section
variable {s u : State}

theorem phased_after_padCopy (hp : s.phase = .pCopy) (h : s.len.toNat ≤ s.msgSize) (he : exec .padCopy s = .next u) :
    (u.recordOperation .padCopy).advance.Phased := by
  obtain ⟨-, rfl⟩ := execPadCopy_eq_next.1 he
  have hsize := s.msgSize_lt
  have hplen : (s.len.setWidth 62).toNat = s.len.toNat := by rw [BitVec.toNat_setWidth]; omega
  refine State.InPhase.advance (q := .pMark) ⟨h, hplen, rfl, fun a ha => ?_⟩ (by simp [Position.next, hp]) (by simp [hp])
  rw [State.recordOperation_plen, hplen] at ha
  simp [Memory.isSome_store, ha]

theorem phased_after_padMark (hp : s.phase = .pMark) (h : s.PadUpTo s.len.toNat) (he : exec .padMark s = .next u) :
    (u.recordOperation .padMark).advance.Phased := by
  obtain ⟨hin, rfl⟩ := execPadMark_eq_next.1 he
  exact State.InPhase.advance (q := .pZero) (h.append (bytes := [0x80]) hin rfl) (by simp [Position.next, hp]) (by simp [hp])

theorem phased_after_padZero (hp : s.phase = .pZero) (h : s.PadUpTo (s.len.toNat + 1)) (he : exec .padZero s = .next u) :
    (u.recordOperation .padZero).advance.Phased := by
  obtain ⟨hin, rfl⟩ := execPadZero_eq_next.1 he
  have hlt := zeroCount_lt s.plen.toNat
  have hmod := zeroCount_spec s.plen.toNat
  have happend := h.append (bytes := List.replicate (zeroCount s.plen.toNat) 0) (by rwa [List.length_replicate])
    (m := s.written.byOperation .padZero) rfl
  have htotal : s.len.toNat + 1 + (List.replicate (zeroCount s.plen.toNat) (0 : Byte)).length =
      64 * ((s.len.toNat + 8) / 64) + 56 := by
    rw [h.plen_eq] at *
    rw [List.length_replicate]
    omega
  rw [htotal, List.length_replicate] at happend
  exact State.InPhase.advance (q := .pLen) happend (by simp [Position.next, hp]) (by simp [hp])

theorem phased_after_padLen (hp : s.phase = .pLen) (h : s.PadUpTo (64 * ((s.len.toNat + 8) / 64) + 56))
    (he : exec .padLen s = .next u) : (u.recordOperation .padLen).advance.Phased := by
  obtain ⟨hin, rfl⟩ := execPadLen_eq_next.1 he
  have hfits := h.lenFits
  have hsize := s.msgSize_lt
  have hnblk : (BitVec.ofNat 56 ((s.plen.toNat + 8) / 64)).toNat = (s.len.toNat + 8) / 64 + 1 := by
    rw [h.plen_eq, BitVec.toNat_ofNat]; omega
  have happend := h.append (bytes := lengthBytes (bitLength s.len)) hin (m := s.written.byOperation .padLen) rfl
  have htotal : 64 * ((s.len.toNat + 8) / 64) + 56 + 8 = 64 * (BitVec.ofNat 56 ((s.plen.toNat + 8) / 64)).toNat := by
    rw [hnblk]; omega
  rw [lengthBytes_length, htotal] at happend
  exact State.InPhase.advance (q := .hInit) { happend with nblk_eq := hnblk, nblkWritten := rfl }
    (by simp [Position.next, hp]) (by simp [hp])

theorem phased_after_hInit (hp : s.phase = .hInit) (h : s.Padded) (he : exec .hInit s = .next u) :
    (u.recordOperation .hInit).advance.Phased := by
  obtain rfl := execHInit_eq_next.1 he
  exact State.Padded.advance_of_hInit { h with } hp rfl

/-- The schedule words and their record are no part of a block's place in the buffer. -/
theorem State.InBlock.with_schedule (h : s.InBlock) (w : Vector Word 64) (m : Vector Bool 64) :
    ({ s with w := w, written := { s.written with w := m } } : State).InBlock := { h with }

theorem phased_after_blkLoad (hp : s.phase = .bLoad) (h : s.InBlock) (he : exec .blkLoad s = .next u) :
    (u.recordOperation .blkLoad).advance.Phased := by
  obtain ⟨w, rfl⟩ : ∃ w, u = { s with w := w } := ⟨_, (execBlkLoad_eq_next.1 he).2⟩
  refine State.InBlock.advance_of_bLoad (h.with_schedule _ _) hp fun k hk hlt => ?_
  simp [Written.byOperation, hlt]

theorem phased_after_schExp (hp : s.phase = .sExp) (h : s.Expanding) (he : exec (.schExp s.j) s = .next u) :
    (u.recordOperation (.schExp s.j)).advance.Phased := by
  obtain ⟨hj, rfl⟩ := execSchExp_eq_next.1 he
  refine State.InBlock.advance_of_sExp (h.with_schedule _ _) hp hj fun k hk hlt => ?_
  simp only [State.recordOperation_written, State.recordOperation_j, Written.byOperation] at hlt ⊢
  rw [Vector.getElem_set]
  split
  · rfl
  · exact h.scheduled k hk (by omega)

theorem phased_after_rndCopy (hp : s.phase = .rCopy) (h : s.InBlock) (hw : s.written.Scheduled 64)
    (he : exec .rndCopy s = .next u) : (u.recordOperation .rndCopy).advance.Phased := by
  obtain rfl := execRndCopy_eq_next.1 he
  exact State.InBlock.advance_of_rCopy { h with } hp hw rfl

theorem phased_after_rndStep (hp : s.phase = .rStep) (h : s.Rounding) (he : exec (.rndStep s.j) s = .next u) :
    (u.recordOperation (.rndStep s.j)).advance.Phased := by
  obtain rfl := execRndStep_eq_next.1 he
  exact State.Rounding.advance_of_rStep { h with vWritten := rfl } hp

theorem phased_after_blkAdd (hp : s.phase = .bAdd) (h : s.InBlock) (he : exec .blkAdd s = .next u) :
    (u.recordOperation .blkAdd).advance.Phased := by
  obtain rfl := execBlkAdd_eq_next.1 he
  exact State.InBlock.advance_of_bAdd { h with hWritten := rfl } hp

theorem phased_after_ser (hp : s.phase = .serial) (he : exec .ser s = .next u) :
    (u.recordOperation .ser).advance.Phased := by
  obtain rfl := execSer_eq_next.1 he
  refine State.InPhase.advance (q := .done) (fun a ha => ?_) (by simp [Position.next, hp]) (by simp [hp])
  have hlt : a < 32 := ha
  simp [Memory.isSome_store, hlt]

/-- The operation due and its position write establish what the invariant says of the next phase. -/
theorem State.Inv.phased_advance {i : Instr} (h : s.Inv) (hnamed : s.position.named = some i)
    (he : exec i s = .next u) : (u.recordOperation i).advance.Phased := by
  have hphased := h.inPhase
  cases hp : s.phase <;> rw [hp] at hphased <;> rw [named_of_phase hp] at hnamed <;> cases hnamed
  case pCopy => exact phased_after_padCopy hp hphased he
  case pMark => exact phased_after_padMark hp hphased he
  case pZero => exact phased_after_padZero hp hphased he
  case pLen => exact phased_after_padLen hp hphased he
  case hInit => exact phased_after_hInit hp hphased he
  case bLoad => exact phased_after_blkLoad hp hphased he
  case sExp => exact phased_after_schExp hp hphased he
  case rCopy => obtain ⟨hblock, hw⟩ := hphased; exact phased_after_rndCopy hp hblock hw he
  case rStep => exact phased_after_rndStep hp hphased he
  case bAdd => exact phased_after_blkAdd hp hphased.1 he
  case serial => exact phased_after_ser hp he

theorem sequencerTurn_keeps_inv (h : s.Inv) (ht : sequencerTurn s = .next u) : u.Inv := by
  obtain ⟨-, rfl⟩ | ⟨i, v, hnamed, -, he, rfl⟩ := sequencerTurn_cases ht
  · exact h
  · exact State.inv_of_inPhase (h.framed_advance hnamed he) (h.phased_advance hnamed he)

end

/-- Settles O45, by what a step can be: RESET, the sequencer's turn, a host action; the invariant rules out a word fed by
hand. -/
theorem invariantKeptByStep : Obligations.InvariantKeptByStep := by
  intro s t h hstep
  have hdrop := h.dropTurn
  obtain ⟨-, rfl⟩ | ⟨-, hseq⟩ | ⟨a, -, hact⟩ | ⟨w, i, u, hfeed, -⟩ := step_cases hstep
  · exact hdrop.resetInput
  · exact sequencerTurn_keeps_inv hdrop hseq
  · exact hostAct_keeps_inv hdrop hact
  · have hhand := h.nextTurn_byHand
    rw [hfeed] at hhand
    cases hhand

end Sys2Proof.Machine
end

section
/-! Proofs of 20_memory.md's statement: every step keeps the memories in canonical form (R46). -/

namespace Sys2Proof.Machine

/-- `MSG`, `PAD` and `DG` are in canonical form. -/
def State.Canonical (s : State) : Prop := s.msg.wf ∧ s.pad.wf ∧ s.dg.wf

section
variable {s t : State}

theorem State.canonical_congr (hmsg : t.msg = s.msg) (hpad : t.pad = s.pad) (hdg : t.dg = s.dg) :
    t.Canonical ↔ s.Canonical := by
  simp only [State.Canonical, hmsg, hpad, hdg]

@[simp] theorem State.dropTurn_canonical : s.dropTurn.Canonical ↔ s.Canonical := State.canonical_congr rfl rfl rfl

@[simp] theorem State.recordOperation_canonical {i : Instr} : (s.recordOperation i).Canonical ↔ s.Canonical :=
  State.canonical_congr rfl rfl rfl

@[simp] theorem State.advance_canonical : s.advance.Canonical ↔ s.Canonical := State.canonical_congr rfl rfl rfl

/-- RESET leaves the three memories empty (R42). -/
theorem State.resetInput_canonical (s : State) : s.resetInput.Canonical := ⟨.nil, .nil, .nil⟩

theorem State.Canonical.writeMsg (h : s.Canonical) (k : Nat) (b : Byte) :
    ({ s with msg := s.msg.store k [b] } : State).Canonical := by
  obtain ⟨hmsg, hpad, hdg⟩ := h
  exact ⟨Memory.store_wf hmsg k [b], hpad, hdg⟩

theorem State.Canonical.exec {i : Instr} (h : s.Canonical) (hi : i ≠ .start) (he : exec i s = .next t) :
    t.Canonical := by
  obtain ⟨hmsg, hpad, hdg⟩ := h
  exact exec_keeps_wf hi he hmsg hpad hdg

/-- START writes no memory (R120). -/
theorem execStart_memories (he : execStart s = .next t) : t.msg = s.msg ∧ t.pad = s.pad ∧ t.dg = s.dg := by
  obtain ⟨-, -, e⟩ | ⟨-, -, -, e⟩ | ⟨-, -, e⟩ | ⟨-, e⟩ := execStart_cases s
  all_goals
    obtain rfl := Host.Outcome.next.inj (e.symm.trans he)
    exact ⟨rfl, rfl, rfl⟩

theorem State.Canonical.hostAct {a : HostAction} (h : s.Canonical) (he : hostAct a s = .next t) : t.Canonical := by
  obtain rfl | ⟨n, -, rfl⟩ | ⟨k, b, -, -, rfl⟩ | ⟨r, rfl⟩ | ⟨-, hstart⟩ := hostAct_cases he
  · exact h
  · exact (State.canonical_congr rfl rfl rfl).2 h
  · exact h.writeMsg k b
  · exact (State.canonical_congr rfl rfl rfl).2 h
  · obtain ⟨hmsg, hpad, hdg⟩ := execStart_memories hstart
    exact (State.canonical_congr hmsg hpad hdg).2 h

theorem State.Canonical.sequencerTurn (h : s.Canonical) (ht : sequencerTurn s = .next t) : t.Canonical := by
  obtain ⟨-, rfl⟩ | ⟨i, u, hnamed, -, hexec, rfl⟩ := sequencerTurn_cases ht
  · exact h
  · rw [State.advance_canonical, State.recordOperation_canonical]
    exact h.exec (Position.named_ne_start hnamed) hexec

theorem State.Canonical.step (h : s.Canonical) (hstep : step s = .next t) : t.Canonical := by
  have hdrop : s.dropTurn.Canonical := State.dropTurn_canonical.2 h
  obtain ⟨-, rfl⟩ | ⟨-, hseq⟩ | ⟨a, -, hact⟩ | ⟨w, i, u, -, -, -, hi, hexec, rfl⟩ := step_cases hstep
  · exact s.dropTurn.resetInput_canonical
  · exact hdrop.sequencerTurn hseq
  · exact hdrop.hostAct hact
  · exact State.recordOperation_canonical.2 (hdrop.exec hi hexec)

end

/-- Settles O43, by what a step can be: RESET empties the memories; every other turn only stores into them. -/
theorem memoriesStayCanonical : Obligations.MemoriesStayCanonical := by
  intro s t hmsg hpad hdg hstep
  have hcanonical : s.Canonical := ⟨hmsg, hpad, hdg⟩
  exact hcanonical.step hstep

end Sys2Proof.Machine
end

section
/-! Proofs of 30_encoding.md's statements about code words: the decoder and the encoder (R69 to R72, R78), the word of a
position (R69), and the values of `CTRL` (R30, R74). -/

namespace Sys2Proof.Machine

/-! ## The two fields of an operation word (R69) -/

theorem opcField_toNat (w : BitVec 10) : (opcField w).toNat = w.toNat / 64 := by
  have hw := w.isLt
  simp [opcField, Nat.shiftRight_eq_div_pow]
  omega

theorem idxField_toNat (w : BitVec 10) : (idxField w).toNat = w.toNat % 64 := by simp [idxField]

/-- An operation word is its two fields. -/
theorem opcField_append_idxField (w : BitVec 10) : opcField w ++ idxField w = w := by
  apply BitVec.eq_of_toNat_eq
  rw [BitVec.toNat_append, ← Nat.shiftLeft_add_eq_or_of_lt (idxField w).isLt, Nat.shiftLeft_eq, opcField_toNat,
    idxField_toNat]
  omega

/-! ## The decoder, opcode by opcode (R71, R72) -/

section
variable {w : BitVec 10} {i : Instr}

theorem unindexed_eq_ok_iff {i₀ : Instr} : unindexed w i₀ = .ok i ↔ idxField w = 0 ∧ i = i₀ := by
  unfold unindexed
  split
  · simp [*, eq_comm]
  · simp_all

theorem decodeOpw_of_unassigned (h : w.toNat / 64 = 0 ∨ 12 ≤ w.toNat / 64) :
    decodeOpw w = .error .unassignedOpcode := by
  rw [← opcField_toNat] at h
  unfold decodeOpw
  split
  case h_12 => rfl
  all_goals omega

theorem decodeOpw_of_seven (h : w.toNat / 64 = 7) :
    decodeOpw w = if 16 ≤ w.toNat % 64 then .ok (.schExp (idxField w)) else .error .scheduleIndexBelow16 := by
  simp only [decodeOpw, opcField_toNat, h, idxField_toNat]

theorem decodeOpw_of_nine (h : w.toNat / 64 = 9) : decodeOpw w = .ok (.rndStep (idxField w)) := by
  simp only [decodeOpw, opcField_toNat, h]

/-- The nine opcodes whose operation takes no index. -/
theorem decodeOpw_of_unindexed (hlo : 1 ≤ w.toNat / 64) (hhi : w.toNat / 64 ≤ 11) (h7 : w.toNat / 64 ≠ 7)
    (h9 : w.toNat / 64 ≠ 9) : ∃ i, decodeOpw w = unindexed w i := by
  have hopc : w.toNat / 64 = 1 ∨ w.toNat / 64 = 2 ∨ w.toNat / 64 = 3 ∨ w.toNat / 64 = 4 ∨ w.toNat / 64 = 5 ∨
      w.toNat / 64 = 6 ∨ w.toNat / 64 = 8 ∨ w.toNat / 64 = 10 ∨ w.toNat / 64 = 11 := by omega
  unfold decodeOpw
  rw [opcField_toNat]
  obtain h | h | h | h | h | h | h | h | h := hopc
  all_goals
    rw [h]
    exact ⟨_, rfl⟩

end

/-! ## The encoder, and the round trip (R70, R71, R74) -/

/-- The index field of an instruction's word: `j` of the two indexed operations, else 0 (R70). -/
def indexField : Instr → BitVec 6
  | .schExp j | .rndStep j => j
  | _ => 0

/-- The OPW column of R70: an operation's word is the code of the phase that names it, then its index. -/
theorem encode_eq_append {i : Instr} (hi : i ≠ .start) : encode i = .q ((duePhase i).code ++ indexField i) := by
  cases i with
  | start => exact absurd rfl hi
  | schExp j | rndStep j =>
    refine congrArg Code.q (BitVec.eq_of_toNat_eq ?_)
    rw [BitVec.toNat_append, ← Nat.shiftLeft_add_eq_or_of_lt (indexField _).isLt]
    simp [duePhase, Phase.code, indexField]
    omega
  | _ => rfl

/-- The decoder inverted (R71): the words of `i` are those with the code of `i`'s phase and with `i`'s index. -/
theorem decodeOpw_eq_ok_iff {w : BitVec 10} {i : Instr} :
    decodeOpw w = .ok i ↔
      i ≠ .start ∧ i.wellFormed = true ∧ opcField w = (duePhase i).code ∧ idxField w = indexField i := by
  constructor
  · intro h
    unfold decodeOpw at h
    split at h
    case h_7 hopc =>
      split at h
      · cases h
        exact ⟨by simp, by simpa [Instr.wellFormed], BitVec.eq_of_toNat_eq hopc, rfl⟩
      · cases h
    case h_9 hopc =>
      cases h
      exact ⟨by simp, rfl, BitVec.eq_of_toNat_eq hopc, rfl⟩
    case h_12 => cases h
    all_goals
      obtain ⟨hidx, rfl⟩ := unindexed_eq_ok_iff.1 h
      exact ⟨by simp, rfl, BitVec.eq_of_toNat_eq ‹_›, hidx⟩
  · rintro ⟨hi, hwf, hopc, hidx⟩
    unfold decodeOpw unindexed
    rw [hopc, hidx]
    cases i with
    | start => exact absurd rfl hi
    | schExp j => exact if_pos (of_decide_eq_true hwf)
    | _ => rfl

/-- Only the value 1 of `CTRL` is START (R74). -/
theorem decodeCtrl_eq_ok_iff {v : BitVec 32} {i : Instr} : decodeCtrl v = .ok i ↔ v = 1 ∧ i = .start := by
  by_cases h1 : v = 1
  · subst h1
    simp [decodeCtrl, eq_comm]
  · by_cases h0 : v = 0 <;> simp_all [decodeCtrl]

/-- Settles O1: both formats by the inversion of their decoder; an operation word is its two fields. -/
theorem decodeEncodeRoundTrip : Obligations.DecodeEncodeRoundTrip := by
  refine ⟨fun i hwf => ?_, fun c i h => ?_⟩
  · by_cases hi : i = .start
    · subst hi; exact decodeCtrl_eq_ok_iff.2 ⟨rfl, rfl⟩
    · rw [encode_eq_append hi]
      exact decodeOpw_eq_ok_iff.2 ⟨hi, hwf, opcField_append _ _, idxField_append _ _⟩
  · cases c with
    | q w =>
      obtain ⟨hi, hwf, hopc, hidx⟩ := decodeOpw_eq_ok_iff.1 h
      exact ⟨hwf, by rw [encode_eq_append hi, ← hopc, ← hidx, opcField_append_idxField]⟩
    | hc v =>
      obtain ⟨rfl, rfl⟩ := decodeCtrl_eq_ok_iff.1 h
      exact ⟨rfl, rfl⟩

/-- Settles O2: each word is evaluated. -/
theorem sampleWordsDecode : Obligations.SampleWordsDecode := by
  unfold Obligations.SampleWordsDecode
  decide

/-! ## Illegal words (R72, R73) -/

theorem performOutOfOrder_of_illegal {w : BitVec 10} {why : Reject} (h : decodeOpw w = .error why) (s : State) :
    performOutOfOrder w s = .refused (.illegalOperation why) := by
  simp only [performOutOfOrder, h]

/-- An illegal word is refused by name in every state, due (SCH.EXP below 16) or not. -/
theorem feedWord_of_illegal {w : BitVec 10} {why : Reject} (h : decodeOpw w = .error why) (s : State) :
    feedWord w s = .refused (.illegalOperation why) := by
  by_cases hdue : s.position.opWord = some w
  · rw [feedWord_of_due hdue]
    simp only [sequencerTurn, hdue, h]
  · rw [feedWord_of_not_due hdue, performOutOfOrder_of_illegal h]

/-- Settles O3, class by class; the legal words by their three forms. -/
theorem illegalWordsRefusedByName : Obligations.IllegalWordsRefusedByName := by
  intro w
  refine ⟨decodeOpw_of_unassigned, fun h7 hlt => ?_, fun hlo hhi h7 h9 hidx => ?_,
    fun why s h => feedWord_of_illegal h s, fun hlo hhi hlegal => ?_⟩
  · rw [decodeOpw_of_seven h7, if_neg (by omega)]
  · obtain ⟨i, hi⟩ := decodeOpw_of_unindexed hlo hhi h7 h9
    rw [hi, unindexed, if_neg (by rwa [← BitVec.toNat_inj, idxField_toNat])]
  · by_cases h9 : w.toNat / 64 = 9
    · exact ⟨_, decodeOpw_of_nine h9⟩
    obtain ⟨hidx, h7⟩ | ⟨h7, hge⟩ | h := hlegal
    · obtain ⟨i, hi⟩ := decodeOpw_of_unindexed hlo hhi h7 h9
      exact ⟨i, by rw [hi, unindexed, if_pos (by rwa [← BitVec.toNat_inj, idxField_toNat])]⟩
    · exact ⟨_, by rw [decodeOpw_of_seven h7, if_pos hge]⟩
    · exact absurd h h9

/-! ## The word of a position (R69) -/

theorem Position.opWord_of_busy {p : Position} (h : p.phase.busy = true) :
    p.opWord = some (p.phase.code ++ p.index) := if_pos h

theorem Position.named_of_busy {p : Position} (h : p.phase.busy = true) : ∃ i, p.named = some i := by
  obtain ⟨ph, blk, j⟩ := p
  cases ph with
  | idle | done | fault => cases h
  | _ => exact ⟨_, rfl⟩

theorem Position.index_toNat (p : Position) :
    p.index.toNat = if p.phase.code.toNat = 7 ∨ p.phase.code.toNat = 9 then p.j.toNat else 0 := by
  obtain ⟨ph, blk, j⟩ := p
  cases ph <;> rfl

/-- Settles O4: the word's value by its two fields, and its decoding by the operation the phase names. -/
theorem operationWordOfPosition : Obligations.OperationWordOfPosition := by
  intro p
  refine ⟨fun hrest => ?_, fun hbusy => ?_⟩
  · simp [Position.opWord, hrest]
  · have hword := Position.opWord_of_busy hbusy
    refine ⟨_, hword, ?_, fun hj => ?_⟩
    · rw [BitVec.toNat_append, ← Nat.shiftLeft_add_eq_or_of_lt p.index.isLt, Nat.shiftLeft_eq, Position.index_toNat]
    · obtain ⟨i, hnamed⟩ := Position.named_of_busy hbusy
      obtain ⟨w, hw, hdecode⟩ := Position.decode_opWord hnamed hj
      rw [hword] at hw
      cases hw
      exact ⟨i, hnamed, hdecode⟩

/-! ## `CTRL` (R30, R74) -/

theorem decodeCtrl_of_reserved {v : BitVec 32} (h0 : v ≠ 0) (h1 : v ≠ 1) :
    decodeCtrl v = .error .reservedControlValue := by
  rw [decodeCtrl, if_neg h1, if_neg h0]

/-- Settles O39: neither answer looks at the state. -/
theorem reservedControlRefused : Obligations.ReservedControlRefused := by
  intro s
  refine ⟨fun v h0 h1 => ?_, rfl⟩
  simp only [hostAct, hostWriteCtrl, decodeCtrl_of_reserved h0 h1]

end Sys2Proof.Machine
end

section
/-! Proofs of 30_encoding.md's statements about operations performed by hand (R72, R73): where they stop, and what they
read. -/

namespace Sys2Proof.Machine

/-! ## Addresses that do not exist (R33, R34) -/

theorem inside_eq_false_iff {base n size : Nat} : inside base n size = false ↔ n ≠ 0 ∧ size < base + n := by
  simp [inside]

theorem execPadCopy_of_outside {s : State} (h : s.msgSize < s.len.toNat) : execPadCopy s = .fault .noMsgAddress := by
  simp [execPadCopy, inside_eq_false_iff.2 (show s.len.toNat ≠ 0 ∧ s.msgSize < 0 + s.len.toNat by omega)]

theorem execBlkLoad_of_outside {s : State} (h : s.padSize < 64 * s.blk.toNat + 64) :
    execBlkLoad s = .fault .noPadAddress := by
  simp [execBlkLoad, inside_eq_false_iff.2 ⟨by decide, h⟩]

theorem execSchExp_of_below {j : BitVec 6} (h : j.toNat < 16) (s : State) :
    execSchExp j s = .refused (.illegalOperation .scheduleIndexBelow16) :=
  if_neg (by omega)

/-- `z` of R90 is the only count below 64 that brings the length to 56 modulo 64. -/
theorem zeroCount_eq_of_mod {n z : Nat} (hz : z < 64) (hmod : (n + z) % 64 = 56) : zeroCount n = z := by
  have hlt := zeroCount_lt n
  have hspec := zeroCount_spec n
  omega

/-- Settles O51: each operation's check of its addresses fails. -/
theorem handRunStops : Obligations.HandRunStops := by
  refine ⟨fun s h => execPadCopy_of_outside h, fun s h => ?_, fun s z hz hmod hne h => ?_, fun s h => ?_,
    fun s h => execBlkLoad_of_outside h, fun s j h => execSchExp_of_below h s⟩
  · exact State.appendPad_of_outside (inside_eq_false_iff.2 ⟨by decide, Nat.lt_succ_of_le h⟩)
  · refine State.appendPad_of_outside (inside_eq_false_iff.2 ?_)
    rw [List.length_replicate, zeroCount_eq_of_mod hz hmod]
    exact ⟨hne, h⟩
  · exact State.appendPad_of_outside (inside_eq_false_iff.2 ⟨by simp, h⟩)

/-! ## Reads of unwritten locations (R73) -/

section
variable {s t : State} {w : BitVec 10} {i : Instr}

theorem performOutOfOrder_of_fault {f : Fault} (hd : decodeOpw w = .ok i) (he : exec i s = .fault f) :
    performOutOfOrder w s = .fault f := by
  simp only [performOutOfOrder, hd, he]

/-- An operation that checks its addresses completes or faults. -/
theorem next_or_fault_ne_refused {c : Bool} {f : Fault} {r : Refusal} :
    (if c = true then .next t else .fault f : Result) ≠ .refused r := by
  cases c <;> simp

/-- Only SCH.EXP below 16, which no word encodes, is refused by its own meaning (R72). -/
theorem exec_ne_refused (hwf : i.wellFormed = true) (r : Refusal) : exec i s ≠ .refused r := by
  cases i with
  | padCopy | padMark | padZero | padLen | blkLoad => exact next_or_fault_ne_refused
  | schExp j => simp [exec, execSchExp, of_decide_eq_true hwf]
  | start =>
    obtain ⟨-, -, e⟩ | ⟨-, -, -, e⟩ | ⟨-, -, e⟩ | ⟨-, e⟩ := execStart_cases s
    all_goals simp [exec, e]
  | hInit | rndCopy | rndStep j | blkAdd | ser => simp [exec, execHInit, execRndCopy, execRndStep, execBlkAdd, execSer]

theorem performOutOfOrder_of_readsUnwritten (hd : decodeOpw w = .ok i) (he : exec i s = .next t)
    (hr : s.ReadsUnwritten i) : performOutOfOrder w s = .fault .unwrittenRead :=
  performOutOfOrder_of_unwritten hd he ((s.readsUnwritten_iff hd).1 hr)

theorem performOutOfOrder_of_readsWritten (hd : decodeOpw w = .ok i) (he : exec i s = .next t)
    (hr : ¬ s.ReadsUnwritten i) : performOutOfOrder w s = .next (t.recordOperation i) :=
  performOutOfOrder_of_written hd he (by rwa [s.readsUnwritten_iff hd, Bool.not_eq_false] at hr)

/-- An unwritten read never completes: the operation stops for it, or at an address that does not exist (log 9). -/
theorem performOutOfOrder_faults (hd : decodeOpw w = .ok i) (hr : s.ReadsUnwritten i) :
    ∃ f, performOutOfOrder w s = .fault f := by
  obtain ⟨-, hwf, -, -⟩ := decodeOpw_eq_ok_iff.1 hd
  cases he : exec i s with
  | next t => exact ⟨_, performOutOfOrder_of_readsUnwritten hd he hr⟩
  | fault f => exact ⟨f, performOutOfOrder_of_fault hd he⟩
  | refused r => exact absurd he (exec_ne_refused hwf r)

end

/-- Settles O56: a due word is the sequencer's step by definition; any other by whether it reads an unwritten location. -/
theorem handRunReadsOnlyWritten : Obligations.HandRunReadsOnlyWritten := by
  refine ⟨fun s w hdue => feedWord_of_due hdue, fun s w i hd hdue => ?_⟩
  rw [takeTurn_feed, feedWord_of_not_due hdue]
  exact ⟨performOutOfOrder_faults hd, fun t he hr => performOutOfOrder_of_readsUnwritten hd he hr,
    fun t he hr => ⟨_, performOutOfOrder_of_readsWritten hd he hr⟩⟩

/-! ## Right after reset (R42, R73) -/

/-- Where nothing is written, every operation but H.INIT, which reads constants only, has an unwritten location to read. -/
theorem State.readsUnwritten_of_nothing {s : State} {i : Instr} (h : s.written = Written.nothing) (hi : i ≠ .hInit) :
    s.ReadsUnwritten i := by
  cases i with
  | hInit => exact absurd rfl hi
  | schExp j => exact ⟨16, .inl rfl, by simp [h, Written.nothing]⟩
  | padCopy | padLen | blkLoad | rndStep j | blkAdd => exact .inl (by rw [h]; rfl)
  | padMark | padZero | rndCopy | ser | start => simp [State.ReadsUnwritten, h, Written.nothing]

/-- By the zeros of log 1 no address of `State.reset` lies outside its memory. -/
theorem exec_reset_completes {i : Instr} (hwf : i.wellFormed = true) : ∃ t, exec i State.reset = .next t := by
  cases i with
  | schExp j => exact ⟨_, execSchExp_eq_next.2 ⟨of_decide_eq_true hwf, rfl⟩⟩
  | padCopy => exact ⟨_, execPadCopy_eq_next.2 ⟨by decide, rfl⟩⟩
  | padMark => exact ⟨_, execPadMark_eq_next.2 ⟨by decide, rfl⟩⟩
  | padZero => exact ⟨_, execPadZero_eq_next.2 ⟨by decide, rfl⟩⟩
  | padLen => exact ⟨_, execPadLen_eq_next.2 ⟨by decide, rfl⟩⟩
  | blkLoad => exact ⟨_, execBlkLoad_eq_next.2 ⟨by decide, rfl⟩⟩
  | hInit | rndCopy | rndStep j | blkAdd | ser | start => exact ⟨_, rfl⟩

/-- The sequencer's turn, by the word that is due. -/
theorem sequencerTurn_of_opWord {s t : State} {w : BitVec 10} {i : Instr} (hw : s.position.opWord = some w)
    (hd : decodeOpw w = .ok i) (he : exec i s = .next t) : sequencerTurn s = .next (t.recordOperation i).advance := by
  simp only [sequencerTurn, hw, hd, he]

/-- H.INIT fed by hand completes, due or not. -/
theorem feedWord_of_hInit {w : BitVec 10} (hd : decodeOpw w = .ok .hInit) (s : State) :
    ∃ t, feedWord w s = .next t ∧ t.h = romIV := by
  have he : exec .hInit s = .next { s with h := romIV } := rfl
  by_cases hdue : s.position.opWord = some w
  · rw [feedWord_of_due hdue, sequencerTurn_of_opWord hdue hd he]
    exact ⟨_, rfl, rfl⟩
  · rw [feedWord_of_not_due hdue, performOutOfOrder_of_readsWritten hd he id]
    exact ⟨_, rfl, rfl⟩

theorem State.opWord_of_idle {s : State} (h : s.phase = .idle) : s.position.opWord = none :=
  Position.opWord_of_resting (named_of_phase h)

/-- Settles O57: after either reset no word is due and nothing is written; H.INIT by its own meaning. -/
theorem handRunAfterReset : Obligations.HandRunAfterReset := by
  intro w i hd
  obtain ⟨-, hwf, -, -⟩ := decodeOpw_eq_ok_iff.1 hd
  refine ⟨fun hi => ?_, fun hi ev s t ht => ?_, ?_⟩
  · obtain ⟨t, he⟩ := exec_reset_completes hwf
    rw [takeTurn_feed, feedWord_of_not_due (by simp [State.opWord_of_idle (s := .reset) rfl])]
    exact performOutOfOrder_of_readsUnwritten hd he (State.readsUnwritten_of_nothing rfl hi)
  · obtain rfl := Host.Outcome.next.inj ht
    rw [takeTurn_feed, feedWord_of_not_due (by simp [State.opWord_of_idle (s := s.resetInput) rfl])]
    exact performOutOfOrder_faults hd (State.readsUnwritten_of_nothing rfl hi)
  · rintro rfl s
    exact feedWord_of_hInit hd s

end Sys2Proof.Machine
end

section
/-! The trace of an invocation, and the same trace fed word by word (R73, R77, R122; 95_test_vectors.md section 9). A trace is
followed twice: by the position alone, which R122 makes a matter of the next-position table, and by the engine, whose state
after each step is in the phase the table says. -/

namespace Sys2Proof.Machine

/-! ## Traces of positions (R77, R122) -/

/-- With `NBLK` at `nblk` the sequencer goes from `p` to `q` by performing the operations listed, one a step. -/
def Position.Follows (nblk : BitVec 56) (p : Position) : List Instr → Position → Prop
  | [], q => p = q
  | i :: is, q => p.named = some i ∧ (p.next nblk).Follows nblk is q

section
variable {nblk : BitVec 56} {p q r : Position} {is js : List Instr}

theorem Position.Follows.append (h : p.Follows nblk is q) (h' : q.Follows nblk js r) : p.Follows nblk (is ++ js) r := by
  induction is generalizing p with
  | nil =>
    obtain rfl : p = q := h
    exact h'
  | cons i is ih =>
    obtain ⟨hnamed, hrest⟩ := h
    exact ⟨hnamed, ih hrest⟩

/-- A loop over `J`: phase `loop` performs `op j` for `j` from `first` to 63 and leaves for phase `exit`. -/
theorem Position.follows_loop {loop exit : Phase} {op : BitVec 6 → Instr} {blk : BitVec 56}
    (hnamed : ∀ j, (Position.mk loop blk j).named = some (op j))
    (hnext : ∀ j, (Position.mk loop blk j).next nblk =
      if j.toNat < 63 then ⟨loop, blk, j + 1⟩ else ⟨exit, blk, j⟩) {first n : Nat} (hn : first + n = 63) :
    (Position.mk loop blk (BitVec.ofNat 6 first)).Follows nblk
      ((List.range (n + 1)).map fun k => op (BitVec.ofNat 6 (first + k))) ⟨exit, blk, 63⟩ := by
  induction n generalizing first with
  | zero =>
    obtain rfl : first = 63 := hn
    exact ⟨hnamed _, hnext _⟩
  | succ n ih =>
    have hmore : (BitVec.ofNat 6 first).toNat < 63 := by rw [BitVec.toNat_ofNat]; omega
    have hrest := ih (first := first + 1) (by omega)
    rw [BitVec.ofNat_add first 1] at hrest
    simp only [Nat.add_right_comm first 1] at hrest
    rw [List.range_succ_eq_map, List.map_cons, List.map_map]
    refine ⟨hnamed _, ?_⟩
    rw [hnext, if_pos hmore]
    exact hrest

theorem Position.follows_expandOps (blk : BitVec 56) :
    (Position.mk .sExp blk 16).Follows nblk expandOps ⟨.rCopy, blk, 63⟩ :=
  Position.follows_loop (op := .schExp) (first := 16) (n := 47) (fun _ => rfl) (fun _ => rfl) rfl

theorem Position.follows_roundsOps (blk : BitVec 56) :
    (Position.mk .rStep blk 0).Follows nblk roundsOps ⟨.bAdd, blk, 63⟩ := by
  have h := Position.follows_loop (nblk := nblk) (blk := blk) (loop := .rStep) (exit := .bAdd) (op := .rndStep) (n := 63)
    (fun _ => rfl) (fun _ => rfl) (Nat.zero_add 63)
  simpa [roundsOps] using h

/-- The pass over one block goes where the row of BLK.ADD says. -/
theorem Position.follows_compressOps (blk : BitVec 56) (j : BitVec 6) :
    (Position.mk .bLoad blk j).Follows nblk compressOps ((Position.mk .bAdd blk 63).next nblk) := by
  have hload : (Position.mk .bLoad blk j).Follows nblk [.blkLoad] ⟨.sExp, blk, 16⟩ := ⟨rfl, rfl⟩
  have hcopy : (Position.mk .rCopy blk 63).Follows nblk [.rndCopy] ⟨.rStep, blk, 0⟩ := ⟨rfl, rfl⟩
  have hadd : (Position.mk .bAdd blk 63).Follows nblk [.blkAdd] ((Position.mk .bAdd blk 63).next nblk) := ⟨rfl, rfl⟩
  exact (((hload.append (follows_expandOps blk)).append hcopy).append (follows_roundsOps blk)).append hadd

/-- The passes over the last `n + 1` blocks. -/
theorem Position.follows_blocks {n : Nat} {blk : BitVec 56} {j : BitVec 6} (hn : blk.toNat + n + 1 = nblk.toNat) :
    ∃ last, (Position.mk .bLoad blk j).Follows nblk (List.replicate (n + 1) compressOps).flatten ⟨.serial, last, 63⟩ := by
  induction n generalizing blk j with
  | zero =>
    have hlast : (Position.mk .bAdd blk 63).next nblk = ⟨.serial, blk, 63⟩ := by
      simp [Position.next, show blk.toNat + 1 = nblk.toNat from hn]
    refine ⟨blk, ?_⟩
    rw [← hlast]
    simpa using follows_compressOps blk j
  | succ n ih =>
    have hmore : (Position.mk .bAdd blk 63).next nblk = ⟨.bLoad, blk + 1, 63⟩ := by
      simp [Position.next, show blk.toNat + 1 < nblk.toNat by omega]
    have hblk : (blk + 1).toNat = blk.toNat + 1 := by
      have := nblk.isLt; rw [BitVec.toNat_add]; simp; omega
    obtain ⟨last, hrest⟩ := ih (blk := blk + 1) (j := 63) (by omega)
    refine ⟨last, ?_⟩
    rw [List.replicate_succ, List.flatten_cons]
    exact Position.Follows.append (hmore ▸ follows_compressOps blk j) hrest

theorem Position.follows_digestOps (blk : BitVec 56) (j : BitVec 6) (hpos : 0 < nblk.toNat) :
    ∃ last, (Position.mk .pCopy blk j).Follows nblk (digestOps nblk.toNat) ⟨.done, last, 63⟩ := by
  have hpad : (Position.mk .pCopy blk j).Follows nblk (padOps ++ [.hInit]) ⟨.bLoad, 0, j⟩ := ⟨rfl, rfl, rfl, rfl, rfl, rfl⟩
  obtain ⟨last, hblocks⟩ := follows_blocks (nblk := nblk) (n := nblk.toNat - 1) (blk := 0) (j := j) (by simp; omega)
  have hser : (Position.mk .serial last 63).Follows nblk [.ser] ⟨.done, last, 63⟩ := ⟨rfl, rfl⟩
  rw [Nat.sub_add_cancel hpos] at hblocks
  exact ⟨last, (hpad.append hblocks).append hser⟩

end

theorem digestOps_length (n : Nat) : (digestOps n).length = 6 + 115 * n := by
  simp [digestOps, padOps, compressOps, expandOps, roundsOps]
  omega

/-! ## The sequencer's step in a state that is as its phase says -/

/-- The number of blocks of the padded message (R87). -/
def State.blockCount (s : State) : BitVec 56 := BitVec.ofNat 56 ((s.len.toNat + 8) / 64 + 1)

section
variable {s : State}

theorem State.blockCount_toNat (h : s.len.toNat ≤ s.msgSize) : s.blockCount.toNat = (s.len.toNat + 8) / 64 + 1 := by
  have := s.msgSize_lt
  rw [State.blockCount, BitVec.toNat_ofNat]
  omega

/-- A padded message of accepted length fits `PAD` (R34). -/
theorem State.padded_le_padSize (h : s.len.toNat ≤ s.msgSize) : 64 * ((s.len.toNat + 8) / 64 + 1) ≤ s.padSize := by
  rw [State.padSize_eq]
  omega

/-- The padder's next `k` bytes lie inside `PAD` where the padded message has room for them. -/
theorem State.PadUpTo.inside_pad {n k : Nat} (h : s.PadUpTo n) (hk : n + k ≤ 64 * ((s.len.toNat + 8) / 64 + 1)) :
    inside s.plen.toNat k s.padSize = true := by
  have := State.padded_le_padSize h.lenFits
  rw [inside_iff, h.plen_eq]
  omega

theorem State.InBlock.inside_pad (h : s.InBlock) : inside (64 * s.blk.toNat) 64 s.padSize = true := by
  have := State.padded_le_padSize h.lenFits
  have := h.nblk_eq
  have := h.blkInRange
  rw [inside_iff]
  omega

/-- A busy state that is as its phase says has its operation performed, and is then as its next phase says (R119, R142). -/
theorem State.Phased.exec_advance {i : Instr} (h : s.Phased) (hnamed : s.position.named = some i) :
    ∃ u, exec i s = .next u ∧ (u.recordOperation i).advance.Phased := by
  unfold State.Phased at h
  cases hp : s.phase <;> rw [hp] at h <;> rw [named_of_phase hp] at hnamed <;> cases hnamed
  case pCopy =>
    have he : exec .padCopy s = .next _ := execPadCopy_eq_next.2 ⟨inside_iff.2 (.inr (by rwa [Nat.zero_add])), rfl⟩
    exact ⟨_, he, phased_after_padCopy hp h he⟩
  case pMark =>
    have he : exec .padMark s = .next _ := execPadMark_eq_next.2 ⟨h.inside_pad (by omega), rfl⟩
    exact ⟨_, he, phased_after_padMark hp h he⟩
  case pZero =>
    have hlt := zeroCount_lt s.plen.toNat
    have hmod := zeroCount_spec s.plen.toNat
    have hplen := h.plen_eq
    have he : exec .padZero s = .next _ := execPadZero_eq_next.2 ⟨h.inside_pad (by omega), rfl⟩
    exact ⟨_, he, phased_after_padZero hp h he⟩
  case pLen =>
    have he : exec .padLen s = .next _ := execPadLen_eq_next.2 ⟨h.inside_pad (by omega), rfl⟩
    exact ⟨_, he, phased_after_padLen hp h he⟩
  case hInit => exact ⟨_, rfl, phased_after_hInit hp h rfl⟩
  case bLoad =>
    have he : exec .blkLoad s = .next _ := execBlkLoad_eq_next.2 ⟨h.inside_pad, rfl⟩
    exact ⟨_, he, phased_after_blkLoad hp h he⟩
  case sExp =>
    have he : exec (.schExp s.j) s = .next _ := execSchExp_eq_next.2 ⟨h.indexLegal, rfl⟩
    exact ⟨_, he, phased_after_schExp hp h he⟩
  case rCopy => obtain ⟨hblock, hw⟩ := h; exact ⟨_, rfl, phased_after_rndCopy hp hblock hw rfl⟩
  case rStep => exact ⟨_, rfl, phased_after_rndStep hp h rfl⟩
  case bAdd => obtain ⟨hblock, -⟩ := h; exact ⟨_, rfl, phased_after_blkAdd hp hblock rfl⟩
  case serial => exact ⟨_, rfl, phased_after_ser hp rfl⟩

theorem State.Phased.indexLegal (h : s.Phased) (hp : s.phase = .sExp) : 16 ≤ s.j.toNat := by
  unfold State.Phased at h
  rw [hp] at h
  exact h.indexLegal

/-- Where BLK.ADD reads it, `NBLK` is the number of blocks of the message. -/
theorem State.Phased.nblk_of_bAdd (h : s.Phased) (hp : s.phase = .bAdd) : s.nblk = s.blockCount := by
  unfold State.Phased at h
  rw [hp] at h
  obtain ⟨hblock, -⟩ := h
  exact BitVec.eq_of_toNat_eq (hblock.nblk_eq.trans (State.blockCount_toNat hblock.lenFits).symm)

/-- Only the rows of BLK.ADD look at `NBLK` (R122). -/
theorem Position.next_congr {p : Position} {m n : BitVec 56} (h : p.phase = .bAdd → m = n) : p.next m = p.next n := by
  obtain ⟨ph, blk, j⟩ := p
  cases ph with
  | bAdd => rw [h rfl]
  | _ => rfl

/-- What the operation due and its position write leave, as far as a trace is concerned. -/
theorem exec_advance_position {i : Instr} {u : State} (h : s.Phased) (hnamed : s.position.named = some i)
    (he : exec i s = .next u) :
    (u.recordOperation i).advance.position = s.position.next s.blockCount ∧
      (u.recordOperation i).advance.turns = s.turns ∧ (u.recordOperation i).advance.len = s.len := by
  have hi := Position.named_ne_start hnamed
  obtain ⟨hpos, hlen, -, -, -, -, hturns, -⟩ := exec_frame hi he
  refine ⟨?_, hturns, hlen⟩
  change u.position.next u.nblk = _
  rw [hpos]
  refine Position.next_congr fun hp => ?_
  have hne : i ≠ .padLen := by
    rintro rfl
    rw [Position.phase_of_named hnamed] at hp
    cases hp
  rw [exec_nblk hi hne he, h.nblk_of_bAdd hp]

end

/-! ## A trace performed by the sequencer, and the same words fed by hand -/

section
variable {s t : State} {i : Instr} {rest : List Turn}

/-- No operation looks at the turns still to come. -/
theorem exec_with_turns (hi : i ≠ .start) (he : exec i s = .next t) (turns : List Turn) :
    exec i { s with turns := turns } = .next { t with turns := turns } := by
  cases i with
  | padCopy => obtain ⟨h, rfl⟩ := execPadCopy_eq_next.1 he; exact execPadCopy_eq_next.2 ⟨h, rfl⟩
  | padMark => obtain ⟨h, rfl⟩ := execPadMark_eq_next.1 he; exact execPadMark_eq_next.2 ⟨h, rfl⟩
  | padZero => obtain ⟨h, rfl⟩ := execPadZero_eq_next.1 he; exact execPadZero_eq_next.2 ⟨h, rfl⟩
  | padLen => obtain ⟨h, rfl⟩ := execPadLen_eq_next.1 he; exact execPadLen_eq_next.2 ⟨h, rfl⟩
  | hInit => obtain rfl := execHInit_eq_next.1 he; rfl
  | blkLoad => obtain ⟨h, rfl⟩ := execBlkLoad_eq_next.1 he; exact execBlkLoad_eq_next.2 ⟨h, rfl⟩
  | schExp j => obtain ⟨h, rfl⟩ := execSchExp_eq_next.1 he; exact execSchExp_eq_next.2 ⟨h, rfl⟩
  | rndCopy => obtain rfl := execRndCopy_eq_next.1 he; rfl
  | rndStep j => obtain rfl := execRndStep_eq_next.1 he; rfl
  | blkAdd => obtain rfl := execBlkAdd_eq_next.1 he; rfl
  | ser => obtain rfl := execSer_eq_next.1 he; rfl
  | start => exact absurd rfl hi

/-- The word of the operation due, fed by hand, is the sequencer's step with one turn more to take. -/
theorem step_of_fed (hnamed : s.position.named = some i) (hj : s.phase = .sExp → 16 ≤ s.j.toNat)
    (he : exec i s = .next t) :
    ∃ w, operationWord? i = some w ∧
      step { s with turns := Turn.feed w :: rest } = .next { (t.recordOperation i).advance with turns := rest } := by
  obtain ⟨w, hdue, hd⟩ := Position.decode_opWord hnamed hj
  have hi := Position.named_ne_start hnamed
  obtain ⟨-, hencode⟩ := decodeEncodeRoundTrip.2 (.q w) i hd
  refine ⟨w, by rw [operationWord?, hencode], ?_⟩
  rw [step_of_cons rfl, takeTurn_feed, feedWord_of_due (s := { s with turns := rest }) hdue]
  exact sequencerTurn_of_exec (s := { s with turns := rest }) hnamed hj (exec_with_turns hi he rest)

/-- The turns that feed the words of a list of operations. -/
def feedTurns (is : List Instr) : List Turn := (is.filterMap operationWord?).map Turn.feed

/-- A trace that the positions follow is performed by the engine, alone or fed word by word, to the same end state. -/
theorem run_of_follows {is : List Instr} {q : Position} (hturns : s.turns = []) (h : s.Phased)
    (hfollows : s.position.Follows s.blockCount is q) :
    ∃ t : State, t.position = q ∧ t.turns = [] ∧ Host.Core.run core is.length s = .next t ∧
      Host.Core.run core is.length { s with turns := feedTurns is } = .next t := by
  induction is generalizing s with
  | nil =>
    have hself : ({ s with turns := [] } : State) = s := by cases s; cases hturns; rfl
    exact ⟨s, hfollows, hturns, rfl, congrArg Host.Outcome.next hself⟩
  | cons i is ih =>
    obtain ⟨hnamed, hrest⟩ := hfollows
    obtain ⟨u, he, hphased⟩ := h.exec_advance hnamed
    obtain ⟨hpos, hturns', hlen⟩ := exec_advance_position h hnamed he
    have hcount : (u.recordOperation i).advance.blockCount = s.blockCount := by rw [State.blockCount, hlen]; rfl
    rw [← hpos, ← hcount] at hrest
    obtain ⟨t, htpos, htturns, hrun, hfed⟩ := ih (hturns'.trans hturns) hphased hrest
    have hstep : step s = .next (u.recordOperation i).advance := by
      rw [step_of_nil hturns]; exact sequencerTurn_of_exec hnamed h.indexLegal he
    obtain ⟨w, hw, hfeed⟩ := step_of_fed (rest := feedTurns is) hnamed h.indexLegal he
    have hcons : feedTurns (i :: is) = Turn.feed w :: feedTurns is := by simp [feedTurns, hw]
    exact ⟨t, htpos, htturns, by rw [List.length_cons, run_succ hstep, hrun],
      by rw [List.length_cons, hcons, run_succ hfeed, hfed]⟩

end

/-- Settles O58: the positions follow DIGEST (R77, R122), so the engine performs it, by itself and fed word by word. -/
theorem fedTraceFollowsSequencer : Obligations.FedTraceFollowsSequencer := by
  intro s hturns hp hlen
  have hphased : s.Phased := by unfold State.Phased; rw [hp]; exact hlen
  have hcount := State.blockCount_toNat hlen
  have hpos : s.position = ⟨.pCopy, s.blk, s.j⟩ := by rw [State.position, hp]
  obtain ⟨last, hfollows⟩ := Position.follows_digestOps (nblk := s.blockCount) s.blk s.j (by omega)
  rw [← hpos] at hfollows
  obtain ⟨t, htpos, htturns, hrun, hfed⟩ := run_of_follows hturns hphased hfollows
  rw [digestOps_length, hcount] at hrun hfed
  exact ⟨t, congrArg Position.phase htpos, htturns, hrun, hfed⟩

end Sys2Proof.Machine
end

section
/-! Proofs of 40_padder.md's statements about the single operations: PAD.COPY (R88), and PAD.MARK, PAD.ZERO and PAD.LEN
(R89 to R91), which are one append each. -/

namespace Sys2Proof.Machine

/-- An operation without an index is due in the phase whose code its word begins with (R69). -/
theorem dueIn_of_unindexed {p : Phase} {i : Instr} {w : BitVec 10} (hp : p ≠ .sExp ∧ p ≠ .rStep) (hbusy : p.busy = true)
    (hword : p.code ++ 0#6 = w) (hencode : encode i = .q w) (hwf : i.wellFormed = true) : DueIn p i w := by
  have hdecode := decodeEncodeRoundTrip.1 i hwf
  rw [hencode] at hdecode
  exact ⟨hencode, hdecode, fun blk j => by rw [Position.opWord_of_unindexed hp hbusy, hword]⟩

/-! ## PAD.COPY (R88) -/

/-- The 62 bits of `PLEN` hold every length that fits `MSG` (R28). -/
theorem State.plen_of_len {s : State} (h : s.len.toNat ≤ s.msgSize) : (s.len.setWidth 62).toNat = s.len.toNat := by
  have := s.msgSize_lt
  rw [BitVec.toNat_setWidth]
  omega

/-- Settles O8: one store at address 0, read back by the rule of a store. -/
theorem padCopyCopiesMessage : Obligations.PadCopyCopiesMessage := by
  refine ⟨dueIn_of_unindexed (by decide) rfl rfl rfl rfl, fun s hlen => ?_⟩
  have hinside : inside 0 s.len.toNat s.msgSize = true := inside_iff.2 (.inr (by omega))
  refine ⟨_, execPadCopy_eq_next.2 ⟨hinside, rfl⟩, fun a ha => ?_, fun a ha => ?_, State.plen_of_len hlen, rfl⟩
  · rw [Memory.read?_store, if_pos (by simpa using ha), Nat.sub_zero, State.message_getElem? s ha]
  · exact Memory.read?_store_outside _ _ _ _ (.inr (by simpa using ha))

/-! ## The append (R89 to R91) -/

/-- What an append of `bytes` to `PAD` leaves: the bytes at `PLEN` and up, `PLEN` past them, all else as before. -/
structure State.Appended (s : State) (bytes : List Byte) (t : State) : Prop where
  read_inside  : ∀ k, k < bytes.length → t.pad.read? (s.plen.toNat + k) = bytes[k]?
  read_outside : ∀ a, a < s.plen.toNat ∨ s.plen.toNat + bytes.length ≤ a → t.pad.read? a = s.pad.read? a
  plen_eq      : t.plen.toNat = s.plen.toNat + bytes.length
  frame        : t = { s with pad := t.pad, plen := t.plen }

theorem State.appendPad_completes {s : State} {bytes : List Byte}
    (h : inside s.plen.toNat bytes.length s.padSize = true) :
    ∃ t, s.appendPad bytes = .next t ∧ s.Appended bytes t := by
  refine ⟨_, State.appendPad_of_inside h, fun k hk => ?_, Memory.read?_store_outside _ _ _, State.plen_add h, rfl⟩
  rw [Memory.read?_store_inside _ _ _ _ hk, List.getElem?_eq_getElem hk]

/-- Settles O9: an append of the marker. -/
theorem padMarkAppendsMarker : Obligations.PadMarkAppendsMarker := by
  refine ⟨dueIn_of_unindexed (by decide) rfl rfl rfl rfl, fun s hroom => ?_⟩
  obtain ⟨t, hexec, happ⟩ := State.appendPad_completes (bytes := [0x80]) (inside_iff.2 (.inr hroom))
  refine ⟨t, hexec, happ.read_inside 0 Nat.one_pos, fun a ha => happ.read_outside a ?_, happ.plen_eq, happ.frame⟩
  rw [List.length_singleton]
  omega

/-- Settles O10: an append of zeros; `z` is the model's count, since only one below 64 will do. -/
theorem padZeroFillsTo56 : Obligations.PadZeroFillsTo56 := by
  refine ⟨dueIn_of_unindexed (by decide) rfl rfl rfl rfl, fun s z hz hmod hroom => ?_⟩
  have hcount : zeroCount s.plen.toNat = z := zeroCount_eq_of_mod hz hmod
  obtain ⟨t, hexec, happ⟩ := State.appendPad_completes (s := s) (bytes := List.replicate z 0)
    (inside_iff.2 (by rwa [List.length_replicate]))
  have hread := happ.read_inside
  have hframe := happ.read_outside
  have hplen := happ.plen_eq
  simp only [List.length_replicate] at hread hframe hplen
  refine ⟨t, by rw [← hexec, ← hcount]; rfl, fun a hle hlt => ?_, hframe, hplen, happ.frame⟩
  obtain ⟨k, rfl⟩ := Nat.exists_eq_add_of_le hle
  have hk : k < z := by omega
  rw [hread k hk, List.getElem?_replicate, if_pos hk]

/-- PAD.LEN appends the length field to the state in which `NBLK` is set. -/
theorem execPadLen_completes {s : State} (h : s.plen.toNat + 8 ≤ s.padSize) :
    ∃ t, execPadLen s = .next t ∧ State.Appended { s with nblk := BitVec.ofNat 56 ((s.plen.toNat + 8) / 64) }
      (lengthBytes (bitLength s.len)) t :=
  State.appendPad_completes (inside_iff.2 (.inr h))

/-- Inside `PAD` the 56 bits of `NBLK` hold the number of blocks exactly (R28). -/
theorem State.nblk_of_plen {s : State} (h : s.plen.toNat + 8 ≤ s.padSize) :
    (BitVec.ofNat 56 ((s.plen.toNat + 8) / 64)).toNat = (s.plen.toNat + 8) / 64 := by
  have := s.padSize_le
  rw [BitVec.toNat_ofNat]
  omega

/-- Settles O11: an append of the length field, whose bytes are those of `8 * LEN`. -/
theorem padLenAppendsBitLength : Obligations.PadLenAppendsBitLength := by
  refine ⟨dueIn_of_unindexed (by decide) rfl rfl rfl rfl, fun s _ hroom => ?_⟩
  obtain ⟨t, hexec, happ⟩ := execPadLen_completes hroom
  have hnblk : t.nblk = BitVec.ofNat 56 ((s.plen.toNat + 8) / 64) := by rw [happ.frame]
  refine ⟨t, hexec, fun k hk => ?_, happ.read_outside, happ.plen_eq, ?_, ?_⟩
  · rw [happ.read_inside k hk, lengthBytes_getElem? _ hk, Option.map_some, lenByte_bitLength _ hk]
  · rw [hnblk, State.nblk_of_plen hroom]
  · rw [hnblk]; exact happ.frame

end Sys2Proof.Machine
end

section
/-! The padded message `pad(M)` (R133): its parts, its length, and that it determines the message (R95). -/

namespace Sys2Proof.Machine

/-! ## The parts of the padded message -/

section
variable (m : List Byte)

/-- The zeros of R133 are those PAD.ZERO counts once the marker stands (R90). -/
theorem padMessage_eq : padMessage m = m ++ [0x80] ++ List.replicate (zeroCount (m.length + 1)) 0 ++
    lengthBytes (BitVec.ofNat 64 (8 * m.length)) := by
  have hzeros : ((55 - (m.length : Int)) % 64).toNat = zeroCount (m.length + 1) := by unfold zeroCount; omega
  rw [padMessage, hzeros]

/-- The parts, each before the next: message, marker, zeros, length field. -/
theorem padMessage_length_parts : (padMessage m).length = m.length + 1 + zeroCount (m.length + 1) + 8 := by
  simp only [padMessage_eq, List.length_append, List.length_singleton, List.length_replicate, lengthBytes_length]

theorem padMessage_length : (padMessage m).length = 64 * ((m.length + 8) / 64 + 1) := by
  have hlt := zeroCount_lt (m.length + 1)
  have hmod := zeroCount_spec (m.length + 1)
  rw [padMessage_length_parts]
  omega

theorem padMessage_getElem?_marker : (padMessage m)[m.length]? = some 0x80 := by
  simp [padMessage]

variable {m}

theorem padMessage_getElem?_message {a : Nat} (h : a < m.length) : (padMessage m)[a]? = m[a]? := by
  simp only [padMessage, List.append_assoc]
  exact List.getElem?_append_left h

theorem padMessage_getElem?_zero {a : Nat} (h : m.length < a) (ha : a < (padMessage m).length - 8) :
    (padMessage m)[a]? = some 0 := by
  obtain ⟨k, rfl⟩ := Nat.exists_eq_add_of_lt h
  simp only [padMessage_eq, List.length_append, List.length_singleton, List.length_replicate, lengthBytes_length] at ha ⊢
  rw [List.getElem?_append_left (by simp; omega), List.getElem?_append_right (by simp), List.getElem?_replicate,
    if_pos (by simp; omega)]

theorem padMessage_getElem?_lengthField {k : Nat} (h : k < 8) :
    (padMessage m)[(padMessage m).length - 8 + k]? = some (lenByte k (BitVec.ofNat 64 (8 * m.length))) := by
  rw [← lengthBytes_getElem? _ h, padMessage_eq, List.length_append (bs := lengthBytes _), lengthBytes_length,
    Nat.add_sub_cancel, List.getElem?_append_right (Nat.le_add_right _ _), Nat.add_sub_cancel_left]

end

/-! ## The padding determines the message (R95) -/

/-- The eight bytes of the length field are all of its 64 bits. -/
theorem lengthBytes_injective : Function.Injective lengthBytes := by
  intro x y h
  simp only [lengthBytes, List.cons.injEq, ← BitVec.toNat_inj, lenByte_toNat] at h
  apply BitVec.eq_of_toNat_eq
  have := x.isLt
  have := y.isLt
  omega

/-- Settles O14: equal last eight bytes give equal lengths, and then the messages, which come first, agree. -/
theorem paddingIsInjective : Obligations.PaddingIsInjective := by
  intro m n hm hn h
  obtain ⟨hfront, hfield⟩ := List.append_inj' h rfl
  have hlength : m.length = n.length := by
    have hbits := congrArg BitVec.toNat (lengthBytes_injective hfield)
    simp only [BitVec.toNat_ofNat] at hbits
    omega
  simp only [List.append_assoc] at hfront
  obtain ⟨hmessage, -⟩ := List.append_inj hfront hlength
  exact hmessage

end Sys2Proof.Machine
end

section
/-! The padder as a whole (R92): each of its four steps stores the next part of the padded message behind the last, so that
in the end `PAD` is the old one with `pad(M)` stored at address 0. -/

namespace Sys2Proof.Machine

/-! ## Stores behind one another -/

theorem Memory.run_append (base : Nat) (bs cs : List Byte) :
    Memory.run base (bs ++ cs) = Memory.run base bs ++ Memory.run (base + bs.length) cs := by
  induction bs generalizing base with
  | nil => rfl
  | cons b bs ih => simp [Memory.run, ih, Nat.add_assoc, Nat.add_comm 1]

theorem Memory.filter_below_store (m : Memory) (base : Nat) (bs : List Byte) :
    (m.store base bs).filter (fun c => decide (c.1 < base + bs.length)) =
      m.filter (fun c => decide (c.1 < base)) ++ Memory.run base bs := by
  have hrun : (Memory.run base bs).filter (fun c => decide (c.1 < base + bs.length)) = Memory.run base bs :=
    List.filter_eq_self.2 fun c hc => decide_eq_true (Memory.mem_run hc).2
  have hbelow (c : Host.Cell) : (decide (c.1 < base + bs.length) && decide (c.1 < base)) = decide (c.1 < base) := by
    rw [← Bool.decide_and]; congr 1; simp; omega
  have habove (c : Host.Cell) : (decide (c.1 < base + bs.length) && decide (base + bs.length ≤ c.1)) = false := by
    rw [← Bool.decide_and, decide_eq_false_iff_not]; omega
  simp only [Memory.store, List.filter_append, List.filter_filter, hrun, hbelow, habove, List.filter_false, List.append_nil]

theorem Memory.filter_above_store (m : Memory) {base n : Nat} {bs : List Byte} (hn : base + bs.length ≤ n) :
    (m.store base bs).filter (fun c => decide (n ≤ c.1)) = m.filter (fun c => decide (n ≤ c.1)) := by
  have hrun : (Memory.run base bs).filter (fun c => decide (n ≤ c.1)) = [] :=
    List.filter_eq_nil_iff.2 fun c hc => by have := Memory.mem_run hc; simp; omega
  have hbelow (c : Host.Cell) : (decide (n ≤ c.1) && decide (c.1 < base)) = false := by
    rw [← Bool.decide_and, decide_eq_false_iff_not]; omega
  have habove (c : Host.Cell) : (decide (n ≤ c.1) && decide (base + bs.length ≤ c.1)) = decide (n ≤ c.1) := by
    rw [← Bool.decide_and]; congr 1; simp; omega
  simp only [Memory.store, List.filter_append, List.filter_filter, hrun, hbelow, habove, List.filter_false, List.append_nil,
    List.nil_append]

/-- Two stores, the second behind the first, are one. -/
theorem Memory.store_store_append (m : Memory) (base : Nat) (bs cs : List Byte) :
    (m.store base bs).store (base + bs.length) cs = m.store base (bs ++ cs) := by
  rw [Memory.store, Memory.filter_below_store, Memory.filter_above_store _ (Nat.le_add_right _ _), Memory.store,
    Memory.run_append, List.length_append, Nat.add_assoc, List.append_assoc (m.filter _)]

/-- The bytes of a store at address 0, read back. -/
theorem Memory.map_byteAt_store_zero (m : Memory) (e : Nat) (sp : Space) (bs : List Byte) :
    (List.range bs.length).map ((m.store 0 bs).byteAt e sp) = bs := by
  apply List.ext_getElem (by simp)
  intro a _ ha
  simp [Memory.byteAt_store, ha]

/-! ## The four steps -/

/-- State `s` in phase `p`, with the bytes padded so far in `PAD` and counted by `PLEN`, and `m` recorded. -/
def State.padding (s : State) (p : Phase) (bytes : List Byte) (m : Written) : State :=
  { s with phase := p, pad := s.pad.store 0 bytes, plen := BitVec.ofNat 62 bytes.length, written := m }

section
variable {s : State} {bs cs : List Byte} {m : Written}

theorem State.padding_plen {p : Phase} (h : bs.length < 2 ^ 62) : (s.padding p bs m).plen.toNat = bs.length := by
  rw [State.padding, BitVec.toNat_ofNat, Nat.mod_eq_of_lt h]

/-- The next part of the padded message, stored at `PLEN`. -/
theorem State.padding_append {p q : Phase} {n : Written} {k : Nat} (h : bs.length < 2 ^ 62) (hk : cs.length = k) :
    { s.padding p bs m with
      phase := q, pad := (s.padding p bs m).pad.store (s.padding p bs m).plen.toNat cs,
      plen := (s.padding p bs m).plen + BitVec.ofNat 62 k, written := n } = s.padding q (bs ++ cs) n := by
  have hpad := Memory.store_store_append s.pad 0 bs cs
  rw [Nat.zero_add] at hpad
  rw [State.padding_plen h]
  simp only [State.padding, hpad, List.length_append, BitVec.ofNat_add, hk]

theorem step_pCopy_padding (hturns : s.turns = []) (hp : s.phase = .pCopy) (hlen : s.len.toNat ≤ s.msgSize) :
    ∃ m, step s = .next (s.padding .pMark (s.message s.len.toNat) m) := by
  obtain ⟨m, hstep⟩ := step_pCopy hturns hp hlen
  have hplen : s.len.setWidth 62 = BitVec.ofNat 62 (s.message s.len.toNat).length := by
    rw [State.message_length, BitVec.ofNat_toNat]
  exact ⟨m, by rw [hstep, hplen]; rfl⟩

theorem step_pMark_padding (hturns : s.turns = []) (h : bs.length + 1 ≤ s.padSize) :
    ∃ n, step (s.padding .pMark bs m) = .next (s.padding .pZero (bs ++ [0x80]) n) := by
  have hlt : bs.length < 2 ^ 62 := by have := s.padSize_le; omega
  obtain ⟨n, hstep⟩ := step_pMark (s := s.padding .pMark bs m) hturns rfl (by rwa [State.padding_plen hlt])
  exact ⟨n, by rw [hstep, ← State.padding_append (p := .pMark) (m := m) hlt List.length_singleton]; rfl⟩

theorem step_pZero_padding (hturns : s.turns = []) (h : bs.length + zeroCount bs.length ≤ s.padSize) :
    ∃ n, step (s.padding .pZero bs m) = .next (s.padding .pLen (bs ++ List.replicate (zeroCount bs.length) 0) n) := by
  have hlt : bs.length < 2 ^ 62 := by have := s.padSize_le; omega
  have hplen := State.padding_plen (s := s) (p := .pZero) (m := m) hlt
  obtain ⟨n, hstep⟩ := step_pZero (s := s.padding .pZero bs m) hturns rfl (by rwa [hplen])
  exact ⟨n, by rw [hstep, ← State.padding_append (p := .pZero) (m := m) hlt List.length_replicate, hplen]⟩

theorem step_pLen_padding (hturns : s.turns = []) (h : bs.length + 8 ≤ s.padSize) :
    ∃ n, step (s.padding .pLen bs m) = .next { s.padding .hInit (bs ++ lengthBytes (bitLength s.len)) n with
      nblk := BitVec.ofNat 56 ((bs.length + 8) / 64) } := by
  have hlt : bs.length < 2 ^ 62 := by have := s.padSize_le; omega
  have hplen := State.padding_plen (s := s) (p := .pLen) (m := m) hlt
  obtain ⟨n, hstep⟩ := step_pLen (s := s.padding .pLen bs m) hturns rfl (by rwa [hplen])
  refine ⟨n, ?_⟩
  rw [hstep, ← State.padding_append (p := .pLen) (m := m) hlt (lengthBytes_length _), hplen]
  rfl

/-- The steps after PAD.COPY make `pad(M)` of a message `M` whose length `LEN` holds. -/
theorem run_padding {M : List Byte} (hturns : s.turns = []) (hroom : (padMessage M).length ≤ s.padSize)
    (hbits : bitLength s.len = BitVec.ofNat 64 (8 * M.length)) :
    ∃ n, Host.Core.run core 3 (s.padding .pMark M m) = .next { s.padding .hInit (padMessage M) n with
      nblk := BitVec.ofNat 56 ((padMessage M).length / 64) } := by
  have hmarked : (M ++ [0x80]).length = M.length + 1 := List.length_append
  have hzeroed : (M ++ [0x80] ++ List.replicate (zeroCount (M.length + 1)) 0).length =
      M.length + 1 + zeroCount (M.length + 1) := by rw [List.length_append, hmarked, List.length_replicate]
  rw [padMessage_length_parts] at hroom
  obtain ⟨n₁, hmark⟩ := step_pMark_padding (m := m) (bs := M) hturns (by omega)
  obtain ⟨n₂, hzero⟩ := step_pZero_padding (m := n₁) (bs := M ++ [0x80]) hturns (by rw [hmarked]; omega)
  rw [hmarked] at hzero
  obtain ⟨n₃, hfield⟩ := step_pLen_padding (m := n₂) hturns (hzeroed ▸ hroom)
  rw [hzeroed, hbits, ← padMessage_eq, ← padMessage_length_parts] at hfield
  exact ⟨n₃, by rw [run_succ hmark, run_succ hzero, run_one hfield]⟩

/-- The state the padder leaves: `PAD` is the old one with `pad(M)` stored at address 0 (R92, R133). -/
def State.afterPadder (s : State) (m : Written) : State :=
  { s.padding .hInit (padMessage (s.message s.len.toNat)) m with nblk := s.blockCount }

/-- `8 * LEN` is the bit length of the message (R67). -/
theorem State.bitLength_len (s : State) : bitLength s.len = BitVec.ofNat 64 (8 * (s.message s.len.toNat).length) := by
  rw [State.message_length, BitVec.ofNat_mul, BitVec.ofNat_toNat, BitVec.setWidth_eq]
  rfl

theorem State.padMessage_message_length (s : State) :
    (padMessage (s.message s.len.toNat)).length = 64 * ((s.len.toNat + 8) / 64 + 1) := by
  rw [padMessage_length, State.message_length]

theorem run_padder (hturns : s.turns = []) (hp : s.phase = .pCopy) (hlen : s.len.toNat ≤ s.msgSize) :
    ∃ m, Host.Core.run core 4 s = .next (s.afterPadder m) := by
  have hblocks := s.padMessage_message_length
  obtain ⟨m₁, hcopy⟩ := step_pCopy_padding hturns hp hlen
  obtain ⟨m₂, hrest⟩ := run_padding (s := s) (m := m₁) hturns (hblocks ▸ State.padded_le_padSize hlen) s.bitLength_len
  rw [hblocks, Nat.mul_div_cancel_left _ (by decide)] at hrest
  exact ⟨m₂, (run_succ hcopy 3).trans hrest⟩

/-! ## The postcondition (R92) -/

theorem State.afterPadder_plen (hlen : s.len.toNat ≤ s.msgSize) :
    (s.afterPadder m).plen.toNat = (padMessage (s.message s.len.toNat)).length := by
  have := State.padded_le_padSize hlen
  have := s.padSize_le
  have hblocks := s.padMessage_message_length
  exact State.padding_plen (s := s) (p := .hInit) (m := m) (by omega)

theorem State.afterPadder_read_inside {a : Nat} (h : a < (padMessage (s.message s.len.toNat)).length) :
    (s.afterPadder m).pad.read? a = (padMessage (s.message s.len.toNat))[a]? := by
  change (s.pad.store 0 _).read? a = _
  rw [Memory.read?_store, if_pos (by omega), Nat.sub_zero]

end

/-- Settles O12: the padder leaves `pad(M)` in `PAD`, and each item of R92 is a part of `pad(M)`. -/
theorem padderPostcondition : Obligations.PadderPostcondition := by
  intro s hturns hp hlen
  obtain ⟨m, hrun⟩ := run_padder hturns hp hlen
  have hblocks := s.padMessage_message_length
  have hplen := State.afterPadder_plen (m := m) hlen
  have hparts := padMessage_length_parts (s.message s.len.toNat)
  rw [State.message_length] at hparts
  refine ⟨s.afterPadder m, hrun, rfl, ?_⟩
  rw [hplen]
  refine ⟨hblocks, ?nblk, ?message, ?marker, ?zeros, ?field, ?beyond, ?padded, rfl⟩
  case nblk => exact (State.blockCount_toNat hlen).trans (by omega)
  case message =>
    intro a ha
    rw [State.afterPadder_read_inside (by omega), padMessage_getElem?_message (by rwa [State.message_length]),
      State.message_getElem? s ha]
  case marker =>
    have hmarker := padMessage_getElem?_marker (s.message s.len.toNat)
    rw [State.message_length] at hmarker
    rw [State.afterPadder_read_inside (by omega), hmarker]
  case zeros =>
    intro a ha ha'
    rw [State.afterPadder_read_inside (by omega), padMessage_getElem?_zero (by rwa [State.message_length]) ha']
  case field =>
    intro k hk
    rw [State.afterPadder_read_inside (by omega), padMessage_getElem?_lengthField hk, ← State.bitLength_len, bitLength]
  case beyond => exact fun a ha => Memory.read?_store_outside _ _ _ _ (.inr (by omega))
  case padded => exact Memory.map_byteAt_store_zero _ _ _ _

end Sys2Proof.Machine
end

section
/-! Proofs of 41_schedule.md's statements: the rotation networks of the schedule and of the rounds bit by bit (R96, R97,
R104, R106), BLK.LOAD (R98), SCH.EXP (R99), and the schedule the two leave (R100). -/

namespace Sys2Proof.Machine

/-! ## The schedule after the expansion (R100) -/

/-- The recurrence between the final words, word `j` from the words 16, 15, 7 and 2 places before it (R99). -/
theorem expandedAfter_scheduleWord (w : Vector Word 64) {j : Nat} (hj : j < 64) (h16 : 16 ≤ j) :
    (expandedAfter w 48)[j] = scheduleWord ((expandedAfter w 48)[j - 16]'(by omega))
      ((expandedAfter w 48)[j - 15]'(by omega)) ((expandedAfter w 48)[j - 7]'(by omega))
      ((expandedAfter w 48)[j - 2]'(by omega)) := by
  obtain ⟨n, rfl⟩ := Nat.exists_eq_add_of_le h16
  have hrec := expandedAfter_recurrence w (n := n) (by omega)
  simp only [show 16 + n - 16 = n by omega, show 16 + n - 15 = n + 1 by omega, show 16 + n - 7 = n + 9 by omega,
    show 16 + n - 2 = n + 14 by omega]
  exact hrec

/-- BLK.LOAD and the 48 steps of the expansion loop. -/
theorem run_schedule {s : State} (hturns : s.turns = []) (hp : s.phase = .bLoad)
    (hroom : 64 * s.blk.toNat + 64 ≤ s.padSize) :
    ∃ m, Host.Core.run core 49 s =
      .next { s with phase := .rCopy, j := 63, w := expandedAfter (loaded s) 48, written := m } := by
  obtain ⟨m₁, hload⟩ := step_bLoad hturns hp hroom
  obtain ⟨m₂, hexpand⟩ := run_expand_all (s := { s with phase := .sExp, j := 16, w := loaded s, written := m₁ })
    hturns rfl rfl
  exact ⟨m₂, (run_succ hload 48).trans hexpand⟩

/-- Settles O17: the loop, an induction over its steps in `run_expand`, writes no word twice, so each word is in the
end what its own step made it. -/
theorem scheduleAfterExpansion : Obligations.ScheduleAfterExpansion := by
  intro s hturns hp hroom
  obtain ⟨m, hrun⟩ := run_schedule hturns hp hroom
  refine ⟨_, hrun, rfl, fun k hk => ?_, fun j hj h16 => expandedAfter_scheduleWord (loaded s) hj h16, rfl⟩
  calc (expandedAfter (loaded s) 48)[k]
      _ = (loaded s)[k] := expandedAfter_get_of_lt (loaded s) (Nat.zero_le 48) le_rfl k (by omega) hk
      _ = s.padWord (64 * s.blk.toNat) k := loaded_get s hk

/-! ## BLK.LOAD (R98) -/

theorem loaded_get_of_le (s : State) {k : Nat} (hk : k < 64) (h16 : 16 ≤ k) : (loaded s)[k] = s.w[k] := by
  simp [loaded, Nat.not_lt.2 h16]

/-- Settles O15: the loaded words are those of the block, and `be32` has the value R13 gives it. -/
theorem blkLoadReadsBigEndianWords : Obligations.BlkLoadReadsBigEndianWords := by
  refine ⟨dueIn_of_unindexed (by decide) rfl rfl rfl rfl, fun s hroom => ?_⟩
  have hexec : exec .blkLoad s = .next { s with w := loaded s } :=
    execBlkLoad_eq_next.2 ⟨inside_iff.2 (.inr hroom), rfl⟩
  refine ⟨_, hexec, fun k hk => ?_, fun k hk h16 => loaded_get_of_le s hk h16, rfl⟩
  rw [loaded_get s hk]
  exact be32_toNat _ _ _ _

/-! ## SCH.EXP (R69, R70, R99) -/

/-- The operation word with opcode `c` and index `j`, as a number (R69). -/
theorem append_index_eq_ofNat (c : BitVec 4) (j : BitVec 6) : c ++ j = BitVec.ofNat 10 (64 * c.toNat + j.toNat) := by
  apply BitVec.eq_of_toNat_eq
  have hc := c.isLt
  have hj := j.isLt
  rw [BitVec.toNat_append, ← Nat.shiftLeft_add_eq_or_of_lt hj, Nat.shiftLeft_eq, BitVec.toNat_ofNat]
  omega

theorem expandAt_get_self {j : BitVec 6} (w : Vector Word 64) (h16 : 16 ≤ j.toNat) :
    (expandAt j w)[j.toNat]'j.isLt = scheduleWord (w[j.toNat - 16]'(by omega)) (w[j.toNat - 15]'(by omega))
      (w[j.toNat - 7]'(by omega)) (w[j.toNat - 2]'(by omega)) := by
  have hsub (d : BitVec 6) (hd : d.toNat ≤ 16) : (j - d).toNat = j.toNat - d.toNat :=
    BitVec.toNat_sub_of_le (BitVec.le_def.2 (hd.trans h16))
  have h16' := hsub 16 (by decide)
  have h15 := hsub 15 (by decide)
  have h7 := hsub 7 (by decide)
  have h2 := hsub 2 (by decide)
  rw [expandAt, Vector.getElem_set_self]
  simp only [h16', h15, h7, h2]
  rfl

theorem expandAt_get_of_ne {j : BitVec 6} (w : Vector Word 64) {k : Nat} (hk : k < 64) (hne : k ≠ j.toNat) :
    (expandAt j w)[k] = w[k] :=
  Vector.getElem_set_ne j.isLt hk hne.symm

/-- Settles O16: its word is opcode 7 with index `j`, and it sets word `j` alone. -/
theorem schExpAppliesRecurrence : Obligations.SchExpAppliesRecurrence := by
  refine ⟨fun j _ => ?_, fun j s h16 => ?_⟩
  · have hword : 7#4 ++ j = BitVec.ofNat 10 (0x1C0 + j.toNat) := append_index_eq_ofNat 7#4 j
    rw [← hword]
    exact ⟨encode_eq_append (by simp), fun _ => rfl⟩
  · have hexec : exec (.schExp j) s = .next { s with w := expandAt j s.w } := execSchExp_eq_next.2 ⟨h16, rfl⟩
    exact ⟨_, hexec, expandAt_get_self s.w h16, fun k hk hne => expandAt_get_of_ne s.w hk hne, rfl⟩

/-! ## The rotation networks, bit by bit (R96, R97, R104, R106) -/

/-- Bit `i` of a shifted word; the `n` top bits are 0 (R12). -/
theorem shr_getLsbD (x : Word) (n i : Nat) : (shr x n).getLsbD i = (decide (i + n < 32) && x.getLsbD (i + n)) := by
  rw [shr, BitVec.getLsbD_ushiftRight, Nat.add_comm]
  by_cases htop : i + n < 32
  · rw [decide_eq_true htop, Bool.true_and]
  · rw [decide_eq_false htop, Bool.false_and, BitVec.getLsbD_of_ge x _ (Nat.not_lt.1 htop)]

/-- Settles O26: the exclusive or acts on each bit, and each term brings its own bit there. -/
theorem rotationNetworksByBit : Obligations.RotationNetworksByBit := by
  intro x i hi
  have hrotr {n : Nat} (hn : n < 32) := rotr_getLsbD x hn hi
  refine ⟨?sigma0, ?sigma1, ?bigS1, ?bigS0⟩
  case sigma0 => rw [sigma0, BitVec.getLsbD_xor, BitVec.getLsbD_xor, hrotr (by decide), hrotr (by decide), shr_getLsbD]
  case sigma1 => rw [sigma1, BitVec.getLsbD_xor, BitVec.getLsbD_xor, hrotr (by decide), hrotr (by decide), shr_getLsbD]
  case bigS1 =>
    rw [bigS1, BitVec.getLsbD_xor, BitVec.getLsbD_xor, hrotr (by decide), hrotr (by decide), hrotr (by decide)]
  case bigS0 =>
    rw [bigS0, BitVec.getLsbD_xor, BitVec.getLsbD_xor, hrotr (by decide), hrotr (by decide), hrotr (by decide)]

end Sys2Proof.Machine
end

section
/-! Proofs of 42_rounds.md's statements: one round as a bijection (R116), choice and majority bit by bit (R105, R107),
and the operations H.INIT, RND.COPY, RND.STEP and BLK.ADD (R110 to R113). -/

namespace Sys2Proof.Machine

/-! ## The round undone (R116) -/

/-- The `t1` of the round that left `u`: `u[0]` is `t1 + t2`, and the three words `t2` was made of are now one place on. -/
def roundT1Back (u : Vector Word 8) : Word := u[0] - (bigS0 u[1] + maj u[1] u[2] u[3])

/-- The round undone: six words move back one place, and the two that `t1` was added into give it up again. -/
def roundBack (k w : Word) (u : Vector Word 8) : Vector Word 8 :=
  #v[u[1], u[2], u[3], u[4] - roundT1Back u, u[5], u[6], u[7],
    roundT1Back u - (bigS1 u[5] + ch u[5] u[6] u[7] + k + w)]

theorem eight_words_eta (v : Vector Word 8) : #v[v[0], v[1], v[2], v[3], v[4], v[5], v[6], v[7]] = v := by
  ext k hk
  interval_cases k <;> rfl

theorem roundT1_eq (k w : Word) (v : Vector Word 8) :
    roundT1 k w v = v[7] + (bigS1 v[4] + ch v[4] v[5] v[6] + k + w) := by
  simp only [roundT1, BitVec.add_assoc]

theorem roundT1Back_roundStep (k w : Word) (v : Vector Word 8) : roundT1Back (roundStep k w v) = roundT1 k w v :=
  BitVec.add_sub_cancel (roundT1 k w v) (roundT2 v)

theorem roundT1_roundBack (k w : Word) (u : Vector Word 8) : roundT1 k w (roundBack k w u) = roundT1Back u :=
  (roundT1_eq k w (roundBack k w u)).trans (BitVec.sub_add_cancel _ _)

theorem roundBack_leftInverse (k w : Word) : Function.LeftInverse (roundBack k w) (roundStep k w) := by
  intro v
  have h3 : v[3] + roundT1 k w v - roundT1Back (roundStep k w v) = v[3] := by
    rw [roundT1Back_roundStep, BitVec.add_sub_cancel]
  have h7 : roundT1Back (roundStep k w v) - (bigS1 v[4] + ch v[4] v[5] v[6] + k + w) = v[7] := by
    rw [roundT1Back_roundStep, roundT1_eq, BitVec.add_sub_cancel]
  calc roundBack k w (roundStep k w v)
      _ = #v[v[0], v[1], v[2], v[3] + roundT1 k w v - roundT1Back (roundStep k w v), v[4], v[5], v[6],
            roundT1Back (roundStep k w v) - (bigS1 v[4] + ch v[4] v[5] v[6] + k + w)] := rfl
      _ = v := by rw [h3, h7, eight_words_eta]

theorem roundBack_rightInverse (k w : Word) : Function.RightInverse (roundBack k w) (roundStep k w) := by
  intro u
  have h0 : roundT1 k w (roundBack k w u) + (bigS0 u[1] + maj u[1] u[2] u[3]) = u[0] := by
    rw [roundT1_roundBack, roundT1Back, BitVec.sub_add_cancel]
  have h4 : u[4] - roundT1Back u + roundT1 k w (roundBack k w u) = u[4] := by
    rw [roundT1_roundBack, BitVec.sub_add_cancel]
  calc roundStep k w (roundBack k w u)
      _ = #v[roundT1 k w (roundBack k w u) + (bigS0 u[1] + maj u[1] u[2] u[3]), u[1], u[2], u[3],
            u[4] - roundT1Back u + roundT1 k w (roundBack k w u), u[5], u[6], u[7]] := rfl
      _ = u := by rw [h0, h4, eight_words_eta]

/-- Settles O22: the round can be undone, since it keeps six words and adds to the other two. -/
theorem roundIsBijective : Obligations.RoundIsBijective := fun k w =>
  Function.bijective_iff_has_inverse.2 ⟨roundBack k w, roundBack_leftInverse k w, roundBack_rightInverse k w⟩

/-! ## Choice and majority, bit by bit (R105, R107) -/

theorem ch_getLsbD (e f g : Word) {i : Nat} (hi : i < 32) :
    (ch e f g).getLsbD i = if e.getLsbD i = true then f.getLsbD i else g.getLsbD i := by
  rw [ch, BitVec.getLsbD_xor, BitVec.getLsbD_and, BitVec.getLsbD_and, BitVec.getLsbD_not, decide_eq_true hi]
  cases e.getLsbD i
  case false => simp
  case true => simp

theorem maj_getLsbD (a b c : Word) (i : Nat) : (maj a b c).getLsbD i =
    ((a.getLsbD i && b.getLsbD i) ^^ (a.getLsbD i && c.getLsbD i) ^^ (b.getLsbD i && c.getLsbD i)) := by
  simp only [maj, BitVec.getLsbD_xor, BitVec.getLsbD_and]

theorem majority_iff_two_of_three : ∀ a b c : Bool,
    ((a && b) ^^ (a && c) ^^ (b && c)) = true ↔ 2 ≤ a.toNat + b.toNat + c.toNat := by decide

/-- Settles O25: the Boolean operations act on each bit, and there the two formulas say what the rules say. -/
theorem choiceAndMajorityByBit : Obligations.ChoiceAndMajorityByBit := by
  refine fun x y z i hi => ⟨ch_getLsbD x y z hi, ?_⟩
  rw [maj_getLsbD]
  exact majority_iff_two_of_three _ _ _

/-! ## The operations (R110 to R113) -/

/-- Settles O18: the initial values are the eight words of R25. -/
theorem hInitLoadsInitialValues : Obligations.HInitLoadsInitialValues :=
  ⟨dueIn_of_unindexed (by decide) rfl rfl rfl rfl, fun _ => execHInit_eq_next.2 rfl⟩

/-- Settles O19: the whole of `H` is taken over at once. -/
theorem rndCopyCopiesHashState : Obligations.RndCopyCopiesHashState :=
  ⟨dueIn_of_unindexed (by decide) rfl rfl rfl rfl, fun _ => ⟨_, execRndCopy_eq_next.2 rfl, fun _ _ => rfl, rfl⟩⟩

/-- Settles O20: its word is opcode 9 with index `j`, and the new registers are the round's, place by place. -/
theorem rndStepIsOneRound : Obligations.RndStepIsOneRound := by
  refine ⟨fun j => ?word, rfl, fun j s => ?round⟩
  case word =>
    have hword : 9#4 ++ j = BitVec.ofNat 10 (0x240 + j.toNat) := append_index_eq_ofNat 9#4 j
    rw [← hword]
    exact ⟨encode_eq_append (by simp), fun _ => rfl⟩
  case round =>
    exact ⟨_, roundT1 (romK[j.toNat]'j.isLt) (s.scheduled j) s.v, roundT2 s.v, execRndStep_eq_next.2 rfl,
      rfl, rfl, rfl, rfl, rfl, rfl, rfl, rfl, rfl, rfl, rfl⟩

/-- Settles O21: a sum of two words is the sum of their values modulo `2 ^ 32`. -/
theorem blkAddAddsWordwise : Obligations.BlkAddAddsWordwise := by
  refine ⟨dueIn_of_unindexed (by decide) rfl rfl rfl rfl,
    fun s => ⟨_, execBlkAdd_eq_next.2 rfl, fun k hk => ?_, rfl⟩⟩
  rw [addWords_getElem s.h s.v hk, BitVec.toNat_add]

end Sys2Proof.Machine
end

section
/-! Proofs of 43_sequencer.md's statements about single turns: the sequencer's step (R119, R122), that a busy one always has
it (R142), and what a step does in the turn of each agent (R118, R73, R158). -/

namespace Sys2Proof.Machine

/-! ## The sequencer's step -/

section
variable {s t : State} {w : BitVec 10} {i : Instr}

/-- A busy state that is as its phase says, with no turn to come, steps, and is then as its next phase says. -/
theorem State.Phased.step_of_busy (h : s.Phased) (hbusy : s.phase.busy = true) (hturns : s.turns = []) :
    ∃ t, step s = .next t ∧ t.Phased := by
  obtain ⟨i, hnamed⟩ := Position.named_of_busy (p := s.position) hbusy
  obtain ⟨u, he, hphased⟩ := h.exec_advance hnamed
  exact ⟨_, (step_of_nil hturns).trans (sequencerTurn_of_exec hnamed h.indexLegal he), hphased⟩

/-- Settles O46: what the invariant says of a busy phase lets its operation complete. -/
theorem busySequencerAlwaysSteps : Obligations.BusySequencerAlwaysSteps := by
  intro s hinv hbusy hturns
  obtain ⟨t, hstep, -⟩ := State.Phased.step_of_busy hinv.inPhase hbusy hturns
  exact ⟨t, hstep⟩

theorem Position.next_of_resting {p : Position} (h : p.named = none) (nblk : BitVec 56) : p.next nblk = p := by
  obtain ⟨ph, blk, j⟩ := p
  cases ph with
  | idle | done | fault => rfl
  | _ => cases h

/-- A turn of the sequencer leaves the position that the table gives for the one before it (R122). -/
theorem sequencerTurn_position (h : sequencerTurn s = .next t) : t.position = s.position.next t.nblk := by
  obtain ⟨hrest, rfl⟩ | ⟨i, u, hnamed, -, he, rfl⟩ := sequencerTurn_cases h
  · exact (Position.next_of_resting hrest _).symm
  · obtain ⟨hpos, -⟩ := exec_frame (Position.named_ne_start hnamed) he
    rw [← hpos]
    rfl

/-- Settles O7: the position left is the table's, and each row is the table read in its phase. -/
theorem nextPositionTable : Obligations.NextPositionTable := by
  intro s t hturns hstep
  have hnext := sequencerTurn_position ((step_of_nil hturns).symm.trans hstep)
  have hrow {p : Phase} (hp : s.phase = p) : t.position = (Position.mk p s.blk s.j).next t.nblk := by
    rw [hnext, State.position, hp]
  refine ⟨hrow, hrow, hrow, hrow, hrow, hrow, ?expand, ?expandLast, hrow, ?round, ?roundLast, ?block, ?blockLast, hrow⟩
  case expand | round | block => exact fun hp hmore => (hrow hp).trans (if_pos hmore)
  case expandLast | roundLast => exact fun hp hlast => (hrow hp).trans (if_neg hlast.not_lt)
  case blockLast => exact fun hp hlast => (hrow hp).trans ((if_neg hlast.not_lt).trans (if_pos hlast))

theorem State.named_of_resting (h : s.phase = .idle ∨ s.phase = .done ∨ s.phase = .fault) : s.position.named = none := by
  obtain hp | hp | hp := h
  all_goals rw [named_of_phase hp]; rfl

/-- Settles O6: no operation is due in a resting phase. -/
theorem restingSequencerChangesNothing : Obligations.RestingSequencerChangesNothing := by
  intro s hrest
  have hnone := State.named_of_resting hrest
  refine ⟨fun hturns => ?_, fun rest hturns => ?_⟩
  · rw [step_of_nil hturns, sequencerTurn_of_resting hnone]
  · rw [step_of_cons hturns]
    exact sequencerTurn_of_resting (s := { s with turns := rest }) hnone

/-! ## A step around the decoded instruction (R119, R120) -/

/-- The sequencer's turn is the decoded operation and the position write; where the operation stops, the turn does. -/
theorem sequencerTurn_runs (hw : s.position.opWord = some w) (hd : decodeOpw w = .ok i) :
    (∀ t, exec i s = .next t →
      ∃ m, sequencerTurn s = .next { t.atPosition (t.position.next t.nblk) with written := m }) ∧
    (∀ f, exec i s = .fault f → sequencerTurn s = .fault f) ∧
    (∀ r, exec i s = .refused r → sequencerTurn s = .refused r) := by
  refine ⟨fun t he => ⟨_, sequencerTurn_of_opWord hw hd he⟩, fun f he => ?_, fun r he => ?_⟩
  · simp only [sequencerTurn, hw, hd, he]
  · simp only [sequencerTurn, hw, hd, he]

/-- An operation out of order is its meaning, the position as it stands, if all that it reads is written; where the
operation stops, it does. -/
theorem performOutOfOrder_runs (hd : decodeOpw w = .ok i) :
    (∀ t, exec i s = .next t →
      (¬ s.ReadsUnwritten i → ∃ m, performOutOfOrder w s = .next { t with written := m }) ∧
      (s.ReadsUnwritten i → performOutOfOrder w s = .fault .unwrittenRead)) ∧
    (∀ f, exec i s = .fault f → performOutOfOrder w s = .fault f) ∧
    (∀ r, exec i s = .refused r → performOutOfOrder w s = .refused r) := by
  refine ⟨fun t he => ⟨fun hr => ⟨_, performOutOfOrder_of_readsWritten hd he hr⟩,
    performOutOfOrder_of_readsUnwritten hd he⟩, fun f he => performOutOfOrder_of_fault hd he, fun r he => ?_⟩
  simp only [performOutOfOrder, hd, he]

/-- A host write to `CTRL` of a value that commands something performs the command (R74). -/
theorem hostAct_writeCtrl {v : BitVec 32} (hd : decodeCtrl v = .ok i) (s : State) :
    hostAct (.writeCtrl v) s = exec i s := by
  simp only [hostAct, hostWriteCtrl, hd]

end

/-- Settles O5, turn by turn: each is taken in the state in which it is no longer to come. -/
theorem stepRunsDecodedInstruction : Obligations.StepRunsDecodedInstruction := by
  refine ⟨fun s w i hturns hw hd => ?idle, fun s rest w i hturns hw hd => ?sequencer,
    fun s rest v i hturns hd => ?command, fun s rest a hturns => step_of_cons hturns,
    fun s rest ev hturns => step_of_cons hturns, fun s rest w hturns hw => ?due, fun s rest w i hturns hw hd => ?outOfOrder⟩
  case idle =>
    rw [step_of_nil hturns]
    exact sequencerTurn_runs hw hd
  case sequencer =>
    rw [step_of_cons hturns]
    exact sequencerTurn_runs (s := { s with turns := rest }) hw hd
  case command =>
    rw [step_of_cons hturns]
    exact hostAct_writeCtrl hd _
  case due =>
    rw [step_of_cons hturns, step_of_cons rfl]
    exact feedWord_of_due (s := { s with turns := rest }) hw
  case outOfOrder =>
    have hfed : step s = performOutOfOrder w { s with turns := rest } :=
      (step_of_cons hturns).trans (feedWord_of_not_due (s := { s with turns := rest }) hw)
    have hruns := performOutOfOrder_runs (s := { s with turns := rest }) hd
    rw [hfed]
    exact hruns

end Sys2Proof.Machine
end

section
/-! Proofs of 43_sequencer.md's statements about the host's actions: START (R120), what is dropped while BUSY (R131), the
writes that are performed (R130) and the reads (R128 to R130). -/

namespace Sys2Proof.Machine

/-! ## START (R120) -/

section
variable {s : State}

theorem execStart_of_overflow (hrest : s.phase = .idle ∨ s.phase = .done) (hlen : 2 ^ 61 ≤ s.len.toNat) :
    execStart s = .next (s.raiseLengthFault .lenOverflow) :=
  (if_pos hrest).trans (if_pos hlen)

theorem execStart_of_capacity (hrest : s.phase = .idle ∨ s.phase = .done) (hlen : s.len.toNat < 2 ^ 61)
    (hcap : s.msgSize < s.len.toNat) : execStart s = .next (s.raiseLengthFault .lenCapacity) :=
  (if_pos hrest).trans ((if_neg hlen.not_ge).trans (if_pos hcap))

theorem execStart_of_accepted (hrest : s.phase = .idle ∨ s.phase = .done) (hlen : s.len.toNat ≤ s.msgSize) :
    execStart s = .next { s with cause := .none, phase := .pCopy } :=
  (if_pos hrest).trans ((if_neg (hlen.trans_lt s.msgSize_lt).not_ge).trans (if_neg hlen.not_gt))

theorem execStart_of_dropped (h : s.phase.busy = true ∨ s.phase = .fault) : execStart s = .next s := by
  refine if_neg ?_
  rintro (hp | hp)
  · simp [hp, Phase.busy, Phase.code] at h
  · simp [hp, Phase.busy, Phase.code] at h

end

/-- Settles O28: the length is judged in IDLE and DONE only, the overflow before the capacity. -/
theorem startAcceptsChecksOrDrops : Obligations.StartAcceptsChecksOrDrops :=
  ⟨rfl, hostAct_writeCtrl rfl, fun _ =>
    ⟨fun hrest => ⟨execStart_of_overflow hrest, execStart_of_capacity hrest, execStart_of_accepted hrest⟩,
      execStart_of_dropped⟩⟩

/-! ## Writes and reads, BUSY or not (R128 to R131) -/

section
variable {s : State} {a : Nat}

theorem hostWriteLen_of_busy (hbusy : s.phase.busy = true) (n : BitVec 64) : hostWriteLen n s = .next s := if_pos hbusy

theorem hostWriteLen_of_resting (hrest : s.phase.busy = false) (n : BitVec 64) :
    hostWriteLen n s = .next { s with len := n, written := { s.written with len := true } } :=
  if_neg (by simp [hrest])

theorem hostReadLen_of_busy (hbusy : s.phase.busy = true) : hostReadLen s = .refused .readWhileBusy := if_pos hbusy

theorem hostReadLen_of_resting (hrest : s.phase.busy = false) :
    hostReadLen s = .next { s with reply := some (.len s.len) } :=
  if_neg (by simp [hrest])

theorem hostWriteMsg_of_beyond (ha : s.msgSize ≤ a) (b : Byte) : hostWriteMsg a b s = .refused .noSuchAddress := if_pos ha

theorem hostWriteMsg_of_busy (ha : a < s.msgSize) (hbusy : s.phase.busy = true) (b : Byte) :
    hostWriteMsg a b s = .next s :=
  (if_neg ha.not_ge).trans (if_pos hbusy)

theorem hostWriteMsg_of_resting (ha : a < s.msgSize) (hrest : s.phase.busy = false) (b : Byte) :
    hostWriteMsg a b s = .next { s with msg := s.msg.store a [b] } :=
  (if_neg ha.not_ge).trans (if_neg (by simp [hrest]))

theorem hostReadMsg_of_beyond (ha : s.msgSize ≤ a) : hostReadMsg a s = .refused .noSuchAddress := if_pos ha

theorem hostReadMsg_of_busy (ha : a < s.msgSize) (hbusy : s.phase.busy = true) :
    hostReadMsg a s = .refused .readWhileBusy :=
  (if_neg ha.not_ge).trans (if_pos hbusy)

theorem hostReadMsg_of_resting (ha : a < s.msgSize) (hrest : s.phase.busy = false) :
    hostReadMsg a s = .next { s with reply := some (.msg (s.msgByte a)) } :=
  (if_neg ha.not_ge).trans (if_neg (by simp [hrest]))

theorem hostReadDg_of_beyond (ha : digestSize ≤ a) : hostReadDg a s = .refused .noSuchAddress := if_pos ha

theorem hostReadDg_of_done (ha : a < digestSize) (hdone : s.phase = .done) :
    hostReadDg a s = .next { s with reply := some (.dg (s.dgByte a)) } :=
  (if_neg ha.not_ge).trans (if_pos hdone)

theorem hostReadDg_of_not_done (ha : a < digestSize) (hdone : s.phase ≠ .done) :
    hostReadDg a s = .refused .digestNotReady :=
  (if_neg ha.not_ge).trans (if_neg hdone)

end

/-- Settles O36, write by write. -/
theorem hostWritesDropped : Obligations.HostWritesDropped :=
  ⟨fun s hbusy => ⟨hostWriteLen_of_busy hbusy, fun _ b ha => hostWriteMsg_of_busy ha hbusy b,
      (hostAct_writeCtrl (i := .start) rfl s).trans (execStart_of_dropped (.inl hbusy))⟩,
    fun _ => ⟨rfl, fun _ => rfl⟩⟩

/-- Settles O37: a write outside BUSY is one store, and the read that follows finds what was stored. -/
theorem hostWritesPerformed : Obligations.HostWritesPerformed := by
  refine ⟨fun s hphase => ⟨fun n => ?len, fun a b ha => ?msg⟩,
    fun s a b ha => ⟨hostWriteMsg_of_beyond ha b, hostReadMsg_of_beyond ha⟩⟩
  all_goals have hrest := Phase.busy_false_iff.2 hphase
  case len => exact ⟨_, hostWriteLen_of_resting hrest n, rfl, hostReadLen_of_resting hrest⟩
  case msg =>
    have hstored : (s.msg.store a [b]).read? a = some b := Memory.read?_store_inside s.msg a [b] 0 Nat.one_pos
    refine ⟨_, hostWriteMsg_of_resting ha hrest b, hstored, fun c hc => ?_, rfl, ?_⟩
    · exact Memory.read?_store_outside _ _ _ _ (by rw [List.length_singleton]; omega)
    · refine (hostReadMsg_of_resting (s := { s with msg := s.msg.store a [b] }) ha hrest).trans ?_
      rw [State.msgByte, Memory.byteAt_of_read? hstored]

/-- Settles O38, read by read. -/
theorem hostReads : Obligations.HostReads := by
  refine fun s => ⟨rfl, fun a ha => ⟨hostReadDg_of_done ha, hostReadDg_of_not_done ha⟩, fun a => hostReadDg_of_beyond,
    fun hphase => ?resting, fun hbusy => ⟨hostReadLen_of_busy hbusy, fun a ha => hostReadMsg_of_busy ha hbusy⟩⟩
  have hrest := Phase.busy_false_iff.2 hphase
  exact ⟨hostReadLen_of_resting hrest, fun a ha => hostReadMsg_of_resting ha hrest⟩

/-- While BUSY a host action that answers a next state changes at most the host's last reply (R131). -/
theorem hostAct_of_busy {a : HostAction} {s t : State} (hbusy : s.phase.busy = true) (h : hostAct a s = .next t) :
    t = { s with reply := t.reply } := by
  obtain rfl | ⟨_, hrest, -⟩ | ⟨_, _, hrest, -⟩ | ⟨_, rfl⟩ | ⟨-, hstart⟩ := hostAct_cases h
  · rfl
  · rw [hbusy] at hrest; cases hrest
  · rw [hbusy] at hrest; cases hrest
  · rfl
  · rw [execStart_of_dropped (.inl hbusy)] at hstart; cases hstart; rfl

/-- Settles O47: the turn is the host's action, which while BUSY is a read or dropped. -/
theorem hostCannotDisturbInvocation : Obligations.HostCannotDisturbInvocation := by
  intro s t a rest hbusy hturns hstep
  rw [step_of_cons hturns] at hstep
  exact hostAct_of_busy (s := { s with turns := rest }) hbusy hstep

end Sys2Proof.Machine
end

section
/-! The trace of an invocation (R77, R122, R125): at every step the operation due is the next of DIGEST. -/

namespace Sys2Proof.Machine

/-- Part way along a trace that the positions follow, the operation named is the next of the trace. -/
theorem Position.Follows.take {nblk : BitVec 56} {p q : Position} {is : List Instr} (h : p.Follows nblk is q) {k : Nat}
    (hk : k < is.length) : ∃ r, p.Follows nblk (is.take k) r ∧ r.named = some is[k] := by
  induction is generalizing p k with
  | nil => cases hk
  | cons i is ih =>
    obtain ⟨hnamed, hrest⟩ := h
    cases k with
    | zero => exact ⟨p, rfl, hnamed⟩
    | succ k =>
      obtain ⟨r, hr, hnext⟩ := ih hrest (Nat.lt_of_succ_lt_succ hk)
      exact ⟨r, ⟨hnamed, hr⟩, hnext⟩

theorem Position.busy_of_named {p : Position} {i : Instr} (h : p.named = some i) : p.phase.busy = true := by
  obtain ⟨ph, blk, j⟩ := p
  cases ph with
  | idle | done | fault => cases h
  | _ => rfl

/-- The operation due at a position is the one its phase names, where that one is well formed (R26). -/
theorem Position.operation_of_named {p : Position} {i : Instr} (h : p.named = some i) (hwf : i.wellFormed = true) :
    p.operation = some i := by
  have hindex (hp : p.phase = .sExp) : 16 ≤ p.j.toNat := by
    have hi : i = .schExp p.j := by simpa [Position.named, hp, eq_comm] using h
    rw [hi] at hwf
    exact of_decide_eq_true hwf
  obtain ⟨w, hw, hd⟩ := Position.decode_opWord h hindex
  rw [Position.operation, hw, Option.bind_some, hd]
  rfl

theorem compressOps_wellFormed : ∀ i ∈ compressOps, i.wellFormed = true := by decide

theorem digestOps_wellFormed {n : Nat} {i : Instr} (h : i ∈ digestOps n) : i.wellFormed = true := by
  simp only [digestOps, List.mem_append, List.mem_flatten, List.mem_replicate] at h
  obtain ((hpad | hinit) | ⟨is, ⟨-, rfl⟩, hblock⟩) | hser := h
  · revert i; decide
  · revert i; decide
  · exact compressOps_wellFormed i hblock
  · revert i; decide

/-- Settles O49: the positions follow DIGEST, and the engine goes with them through any first part of it. -/
theorem invocationTrace : Obligations.InvocationTrace := by
  intro s hturns hp hlen
  have hphased : s.Phased := by unfold State.Phased; rw [hp]; exact hlen
  have hcount := State.blockCount_toNat hlen
  have hpos : s.position = ⟨.pCopy, s.blk, s.j⟩ := by rw [State.position, hp]
  obtain ⟨last, hfollows⟩ := Position.follows_digestOps (nblk := s.blockCount) s.blk s.j (by omega)
  rw [← hpos, hcount] at hfollows
  have hops := digestOps_length ((s.len.toNat + 8) / 64 + 1)
  refine ⟨hops, fun k hk => ?due, ?ends⟩
  case due =>
    rw [← hops] at hk
    obtain ⟨r, hr, hnamed⟩ := hfollows.take hk
    obtain ⟨t, htpos, -, hrun, -⟩ := run_of_follows hturns hphased hr
    rw [List.length_take_of_le hk.le] at hrun
    subst htpos
    refine ⟨t, hrun, Position.busy_of_named hnamed, ?_⟩
    rw [List.getElem?_eq_getElem hk]
    exact Position.operation_of_named hnamed (digestOps_wellFormed (List.getElem_mem hk))
  case ends =>
    obtain ⟨t, htpos, -, hrun, -⟩ := run_of_follows hturns hphased hfollows
    rw [hops] at hrun
    exact ⟨t, hrun, congrArg Position.phase htpos⟩

end Sys2Proof.Machine
end

section
/-! One pass over a block is `compress` (R134): the schedule and the rounds that a pass of the sequencer leaves are those of
the big-step functions, word by word. -/

namespace Sys2Proof.Machine

/-! ## The schedule and the rounds, word by word -/

/-- The schedule words that BLK.LOAD and the expansion leave (R100). -/
def State.expanded (s : State) : Vector Word 64 := expandedAfter (loaded s) 48

/-- The working registers that RND.COPY and the 64 rounds then leave. -/
def State.rounded (s : State) : Vector Word 8 := roundedAfter s.expanded s.h 64

/-- Block `i` of `PAD` (R48). -/
def State.padBlock (s : State) (i : Nat) : List Byte := (List.range 64).map fun k => s.padByte (64 * i + k)

theorem State.padBlock_getD (s : State) (i : Nat) {k : Nat} (hk : k < 64) :
    (s.padBlock i).getD k 0 = s.padByte (64 * i + k) := by
  simp [State.padBlock, hk]

theorem blockWord_padBlock (s : State) (i : Nat) {k : Nat} (hk : k < 16) :
    blockWord (s.padBlock i) k = s.padWord (64 * i) k := by
  have hbyte (m : Nat) (hm : m < 4) : (s.padBlock i).getD (4 * k + m) 0 = s.padByte (64 * i + (4 * k + m)) :=
    s.padBlock_getD i (by omega)
  rw [blockWord, hbyte 1 (by decide), hbyte 2 (by decide), hbyte 3 (by decide)]
  rw [← Nat.add_zero (4 * k), hbyte 0 (by decide)]
  rfl

theorem scheduleAfter_length (b : List Byte) (n : Nat) : (scheduleAfter b n).length = 16 + n := by
  induction n with
  | zero => simp [scheduleAfter]
  | succ n ih => rw [scheduleAfter, extendSchedule, List.length_append, ih]; rfl

/-- The words that BLK.LOAD and the expansion loop leave are the schedule of the block (R134). -/
theorem scheduleAfter_getD (s : State) {n : Nat} (hn : n ≤ 48) {k : Nat} (hk : k < 16 + n) :
    (scheduleAfter (s.padBlock s.blk.toNat) n).getD k 0 = s.expanded[k]'(by omega) := by
  induction n generalizing k with
  | zero =>
    rw [State.expanded, expandedAfter_get_of_lt (loaded s) (Nat.zero_le 48) le_rfl k (by omega) hk]
    change _ = (loaded s)[k]
    rw [loaded_get s hk, ← blockWord_padBlock s s.blk.toNat hk]
    simp [scheduleAfter, hk]
  | succ n ih =>
    have hlength := scheduleAfter_length (s.padBlock s.blk.toNat) n
    have hword (d : Nat) (hd : 1 ≤ d) : (scheduleAfter (s.padBlock s.blk.toNat) n).getD (16 + n - d) 0 =
      s.expanded[16 + n - d]'(by omega) := ih (by omega) (by omega)
    rw [scheduleAfter, extendSchedule]
    by_cases hold : k < 16 + n
    · rw [List.getD_append _ _ _ _ (hlength ▸ hold), ih (by omega) hold]
    · obtain rfl : k = 16 + n := by omega
      rw [List.getD_append_right _ _ _ _ hlength.le, hlength, Nat.sub_self, hword 16 (by decide), hword 15 (by decide),
        hword 7 (by decide), hword 2 (by decide)]
      exact (expandedAfter_scheduleWord (loaded s) (by omega) (by omega)).symm

/-- The rounds of the sequencer are those of R134, on the same schedule words. -/
theorem roundedAfter_eq_roundsAfter {w : Vector Word 64} {ws : List Word} (h : ∀ k (hk : k < 64), ws.getD k 0 = w[k])
    (v : Vector Word 8) {n : Nat} (hn : n ≤ 64) : roundedAfter w v n = roundsAfter ws v n := by
  induction n with
  | zero => rfl
  | succ n ih =>
    have hindex : (BitVec.ofNat 6 n).toNat = n := by rw [BitVec.toNat_ofNat]; omega
    have hconstant : romK.toList.getD n 0 = romK[n]'hn := by
      rw [List.getD_eq_getElem _ _ (by rw [Vector.length_toList]; exact hn)]; rfl
    simp only [roundedAfter, roundsAfter, hindex, ih (by omega), h n hn, hconstant]

theorem addWords_rounded_eq_compress (s : State) : addWords s.h s.rounded = compress s.h (s.padBlock s.blk.toNat) := by
  rw [State.rounded, compress, scheduleOf, roundedAfter_eq_roundsAfter (fun k hk => scheduleAfter_getD s le_rfl hk) s.h le_rfl]

/-! ## The pass -/

/-- State `s` at another position and with other hash registers: all that a pass over a block changes (R134). -/
def State.inPass (s : State) (p : Position) (h v : Vector Word 8) (w : Vector Word 64) (m : Written) : State :=
  { s with phase := p.phase, blk := p.blk, j := p.j, h := h, v := v, w := w, written := m }

/-- One pass over block `BLK`, up to the position write after BLK.ADD. -/
theorem run_pass {s : State} (hturns : s.turns = []) (hp : s.phase = .bLoad) (hroom : 64 * s.blk.toNat + 64 ≤ s.padSize) :
    ∃ v w m, Host.Core.run core 115 s = .next
      (s.inPass ((Position.mk .bAdd s.blk 63).next s.nblk) (compress s.h (s.padBlock s.blk.toNat)) v w m) := by
  obtain ⟨m₁, hschedule⟩ := run_schedule hturns hp hroom
  obtain ⟨m₂, hcopy⟩ := step_rCopy (s := s.inPass ⟨.rCopy, s.blk, 63⟩ s.h s.v s.expanded m₁) hturns rfl
  obtain ⟨m₃, hrounds⟩ := run_rounds_all (s := s.inPass ⟨.rStep, s.blk, 0⟩ s.h s.h s.expanded m₂) hturns rfl rfl
  obtain ⟨m₄, hadd⟩ := step_bAdd (s := s.inPass ⟨.bAdd, s.blk, 63⟩ s.h s.rounded s.expanded m₃) hturns rfl
  refine ⟨s.rounded, s.expanded, m₄, ?_⟩
  rw [← addWords_rounded_eq_compress]
  calc Host.Core.run core (49 + 66) s
      _ = Host.Core.run core 66 (s.inPass ⟨.rCopy, s.blk, 63⟩ s.h s.v s.expanded m₁) := run_add hschedule
      _ = Host.Core.run core (64 + 1) (s.inPass ⟨.rStep, s.blk, 0⟩ s.h s.h s.expanded m₂) := run_succ hcopy 65
      _ = Host.Core.run core 1 (s.inPass ⟨.bAdd, s.blk, 63⟩ s.h s.rounded s.expanded m₃) := run_add hrounds
      _ = .next (s.inPass ((Position.mk .bAdd s.blk 63).next s.nblk) (addWords s.h s.rounded) s.rounded s.expanded m₄) :=
        run_one hadd

/-- After the last block the pass leads to SER. -/
theorem Position.next_of_last {blk nblk : BitVec 56} (h : blk.toNat + 1 = nblk.toNat) (j : BitVec 6) :
    (Position.mk .bAdd blk j).next nblk = ⟨.serial, blk, j⟩ :=
  (if_neg h.not_lt).trans (if_pos h)

/-- Before the last block the pass leads to the next one. -/
theorem Position.next_of_more {blk nblk : BitVec 56} (h : blk.toNat + 1 < nblk.toNat) (j : BitVec 6) :
    (Position.mk .bAdd blk j).next nblk = ⟨.bLoad, blk + 1, j⟩ :=
  if_pos h

/-- Settles O48: one pass, and the two rows of BLK.ADD. -/
theorem blockPassIsCompress : Obligations.BlockPassIsCompress := by
  intro s hturns hp hblk hpad
  obtain ⟨v, w, m, hrun⟩ := run_pass hturns hp (by omega)
  obtain hmore | hlast : s.blk.toNat + 1 < s.nblk.toNat ∨ s.blk.toNat + 1 = s.nblk.toNat := by omega
  · rw [Position.next_of_more hmore] at hrun
    exact ⟨_, hrun, rfl, fun _ => ⟨rfl, rfl⟩, fun hlast => absurd hlast hmore.ne, rfl⟩
  · rw [Position.next_of_last hlast] at hrun
    exact ⟨_, hrun, rfl, fun hmore => absurd hlast hmore.ne, fun _ => ⟨rfl, rfl⟩, rfl⟩

end Sys2Proof.Machine
end

section
/-! The serializer (R126), the compressor on the padded message (R133, R52), and the invocation as a whole (R135): the padder,
a pass for every block and SER, one behind another. -/

namespace Sys2Proof.Machine

/-! ## SER (R126) -/

/-- Settles O27: one store at address 0 of the 32 bytes of `H`. -/
theorem serWritesDigest : Obligations.SerWritesDigest := by
  refine ⟨dueIn_of_unindexed (by decide) rfl rfl rfl rfl, fun s =>
    ⟨_, execSer_eq_next.2 rfl, fun k m hk hm => ?inside, fun a ha => ?outside, rfl⟩⟩
  case inside =>
    rw [Memory.read?_store, if_pos (by rw [digestBytes_length]; omega), Nat.sub_zero, digestBytes_getElem? s.h hk hm,
      Option.map_some, byteOf_toNat]
  case outside => exact Memory.read?_store_outside _ _ _ _ (.inr (by rwa [digestBytes_length]))

/-! ## The compressor and the padded message (R133, R52) -/

/-- Settles O13: the length is a multiple of 64 by the count of zeros, and on such a buffer the compressor is `digest`. -/
theorem paddedMessageIsWholeBlocks : Obligations.PaddedMessageIsWholeBlocks := by
  refine ⟨fun m => ⟨padMessage_length m, ?_⟩, fun p hp => if_neg hp⟩
  have hwhole : (padMessage m).length % 64 = 0 := by rw [padMessage_length, Nat.mul_mod_right]
  rw [compressor, if_pos hwhole]
  rfl

/-! ## The passes over all blocks (R135) -/

/-- Before a block `BLK` of the buffer `p` that `PAD` holds, with the hash state of the blocks before it in `H`. -/
structure State.AtBlock (s : State) (p : List Byte) : Prop where
  turns_eq   : s.turns = []
  phase_eq   : s.phase = .bLoad
  blkInRange : s.blk.toNat < s.nblk.toNat
  inside_pad : 64 * s.nblk.toNat ≤ s.padSize
  pad_eq     : ∀ i, i < s.nblk.toNat → s.padBlock i = blockOf p i
  h_eq       : s.h = hashAfter p s.blk.toNat

section
variable {p : List Byte} {s : State}

theorem State.AtBlock.run_block (h : s.AtBlock p) : ∃ v w m, Host.Core.run core 115 s =
    .next (s.inPass ((Position.mk .bAdd s.blk 63).next s.nblk) (hashAfter p (s.blk.toNat + 1)) v w m) := by
  have hin := h.inside_pad
  have hblk := h.blkInRange
  rw [hashAfter, ← h.h_eq, ← h.pad_eq s.blk.toNat hblk]
  exact run_pass h.turns_eq h.phase_eq (by omega)

theorem State.blk_succ_toNat (h : s.blk.toNat + 1 < s.nblk.toNat) : (s.blk + 1).toNat = s.blk.toNat + 1 :=
  BitVec.toNat_add_of_lt (h.trans s.nblk.isLt)

/-- The pass over a block but the last leaves the engine before the next one. -/
theorem State.AtBlock.next (h : s.AtBlock p) (hmore : s.blk.toNat + 1 < s.nblk.toNat) (v : Vector Word 8)
    (w : Vector Word 64) (m : Written) :
    (s.inPass ⟨.bLoad, s.blk + 1, 63⟩ (hashAfter p (s.blk.toNat + 1)) v w m).AtBlock p :=
  have hblk := State.blk_succ_toNat hmore
  { h with phase_eq := rfl, blkInRange := hblk ▸ hmore, h_eq := congrArg (hashAfter p) hblk.symm }

/-- The passes over the last `n + 1` blocks lead to SER, with the hash state of the whole buffer in `H`. -/
theorem State.AtBlock.run_blocks {n : Nat} (h : s.AtBlock p) (hn : s.blk.toNat + n + 1 = s.nblk.toNat) :
    ∃ blk v w m, Host.Core.run core (115 * (n + 1)) s =
      .next (s.inPass ⟨.serial, blk, 63⟩ (hashAfter p s.nblk.toNat) v w m) := by
  induction n generalizing s with
  | zero =>
    have hlast : s.blk.toNat + 1 = s.nblk.toNat := hn
    obtain ⟨v, w, m, hrun⟩ := h.run_block
    rw [Position.next_of_last hlast, hlast] at hrun
    exact ⟨s.blk, v, w, m, hrun⟩
  | succ n ih =>
    have hmore : s.blk.toNat + 1 < s.nblk.toNat := by omega
    obtain ⟨v, w, m, hrun⟩ := h.run_block
    rw [Position.next_of_more hmore] at hrun
    have hcount : (s.blk + 1).toNat + n + 1 = s.nblk.toNat := by rw [State.blk_succ_toNat hmore]; omega
    obtain ⟨blk, v', w', m', hrest⟩ := ih (h.next hmore v w m) hcount
    refine ⟨blk, v', w', m', ?_⟩
    rw [Nat.mul_succ, Nat.add_comm, run_add hrun, hrest]
    rfl

end

/-! ## From START to DONE (R135) -/

/-- Block `i` of a buffer of whole blocks, byte by byte. -/
theorem blockOf_map_range (f : Nat → Byte) {n i : Nat} (h : i < n) :
    blockOf ((List.range (64 * n)).map f) i = (List.range 64).map fun k => f (64 * i + k) := by
  have hlength : 64 ≤ 64 * n - 64 * i := by omega
  apply List.ext_getElem
  · simp [blockOf, hlength]
  · intro k _ _
    simp [blockOf]

/-- The bytes of a store at address 0, read one by one. -/
theorem Memory.map_read?_store_zero (m : Memory) (bs : List Byte) :
    (List.range bs.length).map (m.store 0 bs).read? = bs.map some := by
  apply List.ext_getElem (by simp)
  intro a _ ha
  rw [List.length_map] at ha
  simp [Memory.read?_store, ha]

section
variable {s : State}

/-- The state `s` of an accepted length after the padder and H.INIT. -/
def State.atFirstBlock (s : State) (m : Written) : State :=
  (s.afterPadder m).inPass ⟨.bLoad, 0, s.j⟩ romIV s.v s.w m

theorem State.atFirstBlock_atBlock (hturns : s.turns = []) (hlen : s.len.toNat ≤ s.msgSize) (m : Written) :
    (s.atFirstBlock m).AtBlock (padMessage (s.message s.len.toNat)) where
  turns_eq := hturns
  phase_eq := rfl
  blkInRange := by
    change 0 < s.blockCount.toNat
    rw [State.blockCount_toNat hlen]
    omega
  inside_pad := by
    change 64 * s.blockCount.toNat ≤ s.padSize
    rw [State.blockCount_toNat hlen]
    exact State.padded_le_padSize hlen
  pad_eq i hi := by
    have hbytes := Memory.map_byteAt_store_zero s.pad s.epoch .pad (padMessage (s.message s.len.toNat))
    rw [s.padMessage_message_length, ← State.blockCount_toNat hlen] at hbytes
    rw [← hbytes, blockOf_map_range _ (show i < s.blockCount.toNat from hi)]
    rfl
  h_eq := rfl

theorem run_to_first_block (hturns : s.turns = []) (hp : s.phase = .pCopy) (hlen : s.len.toNat ≤ s.msgSize) :
    ∃ m, Host.Core.run core 5 s = .next (s.atFirstBlock m) := by
  obtain ⟨m₁, hpadder⟩ := run_padder hturns hp hlen
  obtain ⟨m₂, hinit⟩ := step_hInit (s := s.afterPadder m₁) hturns rfl
  exact ⟨m₂, (run_add (n := 1) hpadder).trans (run_one hinit)⟩

/-- The invocation from PAD.COPY to DONE: what it leaves in `DG`, and what it does not touch. -/
theorem run_invocation (hturns : s.turns = []) (hp : s.phase = .pCopy) (hlen : s.len.toNat ≤ s.msgSize) :
    ∃ t : State, Host.Core.run core (6 + 115 * ((s.len.toNat + 8) / 64 + 1)) s = .next t ∧ t.phase = .done ∧
      t.dg = s.dg.store 0 (digest (s.message s.len.toNat)) ∧ t.cause = s.cause ∧ t.msg = s.msg ∧ t.len = s.len ∧
      t.cfg = s.cfg := by
  have hcount := State.blockCount_toNat hlen
  obtain ⟨m₁, hfirst⟩ := run_to_first_block hturns hp hlen
  have hat := State.atFirstBlock_atBlock hturns hlen m₁
  have hn : (s.atFirstBlock m₁).blk.toNat + (s.len.toNat + 8) / 64 + 1 = (s.atFirstBlock m₁).nblk.toNat := by
    change 0 + (s.len.toNat + 8) / 64 + 1 = s.blockCount.toNat
    omega
  obtain ⟨blk, v, w, m₂, hblocks⟩ := hat.run_blocks hn
  obtain ⟨m₃, hser⟩ := step_serial (s := (s.atFirstBlock m₁).inPass ⟨.serial, blk, 63⟩
    (hashAfter (padMessage (s.message s.len.toNat)) (s.atFirstBlock m₁).nblk.toNat) v w m₂) hturns rfl
  have hsplit (n : Nat) : 6 + 115 * n = 5 + (115 * n + 1) := by omega
  rw [hsplit]
  refine ⟨_, (run_add hfirst).trans ((run_add hblocks).trans (run_one hser)), rfl, ?_, rfl, rfl, rfl, rfl⟩
  have hwhole : s.blockCount.toNat = (padMessage (s.message s.len.toNat)).length / 64 := by
    rw [s.padMessage_message_length, hcount]
    omega
  rw [digest, ← hwhole]
  rfl

/-- An accepted START, given as the only turn to come. -/
theorem step_of_start (hrest : s.phase = .idle ∨ s.phase = .done) (hlen : s.len.toNat ≤ s.msgSize) :
    step { s with turns := [Turn.host (.writeCtrl 1)] } =
      .next { s with turns := [], cause := .none, phase := .pCopy } := by
  rw [step_of_cons rfl, takeTurn_host, hostAct_writeCtrl (i := .start) rfl]
  exact execStart_of_accepted (s := { s with turns := [] }) hrest hlen

end

/-- Settles O50: START, then the invocation; `DG` holds the 32 bytes that SER stored. -/
theorem invocationComputesDigest : Obligations.InvocationComputesDigest := by
  intro s hrest hlen
  obtain ⟨t, hrun, hdone, hdg, hcause, hmsg, hlen', hcfg⟩ :=
    run_invocation (s := { s with turns := [], cause := .none, phase := .pCopy }) rfl rfl hlen
  refine ⟨t, ?run, hdone, ?status, ?digest, hmsg, hlen', hcfg⟩
  case run =>
    rw [Nat.add_comm 1, run_succ (step_of_start hrest hlen)]
    exact hrun
  case status =>
    rw [State.status_eq, hdone, show t.cause = .none from hcause]
    decide
  case digest =>
    rw [hdg, ← digestBytes_length (hashAfter _ _)]
    exact Memory.map_read?_store_zero s.dg (digest (s.message s.len.toNat))

end Sys2Proof.Machine
end

section
/-! Proofs of 60_exceptions.md's statements: what the entry of LengthFault writes (R143), which step makes it (R140 to R142),
and that FAULT is left by RESET only (R145, R149). -/

namespace Sys2Proof.Machine

/-! ## The fault entry (R143) -/

@[simp] theorem State.raiseLengthFault_status (s : State) (c : Cause) :
    (s.raiseLengthFault c).status = statusWord .fault c := rfl

/-- Settles O29: the overflow is judged first, and STATUS is that of FAULT with the cause recorded. -/
theorem lengthFaultEntry : Obligations.LengthFaultEntry := by
  intro s hrest hcap
  obtain hlen | hlen := Nat.lt_or_ge s.len.toNat (2 ^ 61)
  · refine ⟨_, _, execStart_of_capacity hrest hlen hcap, rfl, .inr ⟨hlen, rfl, ?_⟩⟩
    rw [State.raiseLengthFault_status]
    decide
  · refine ⟨_, _, execStart_of_overflow hrest hlen, rfl, .inl ⟨hlen, rfl, ?_⟩⟩
    rw [State.raiseLengthFault_status]
    decide

/-! ## Which step enters FAULT (R140 to R142) -/

section
variable {s t : State} {a : HostAction}

/-- A turn that is not the sequencer's own was on the list. -/
theorem State.turns_of_nextTurn {u : Turn} (h : s.nextTurn = u) (hu : u ≠ Turn.sequencer) :
    s.turns = u :: s.turns.tail := by
  cases hturns : s.turns with
  | nil => exact absurd (h.symm.trans (nextTurn_of_nil hturns)) hu
  | cons v rest => rw [← h, nextTurn_of_cons hturns, List.tail_cons]

/-- BLK.ADD, after which the table reads `NBLK`, leaves it as it was. -/
theorem sequencerTurn_nblk_of_bAdd (hp : s.phase = .bAdd) (h : sequencerTurn s = .next t) : t.nblk = s.nblk := by
  obtain ⟨-, rfl⟩ | ⟨i, u, hnamed, -, he, rfl⟩ := sequencerTurn_cases h
  · rfl
  · obtain rfl : .blkAdd = i := Option.some.inj ((named_of_phase hp).symm.trans hnamed)
    rw [State.advance_nblk, State.recordOperation_nblk, exec_nblk (by simp) (by simp) he]

/-- The sequencer never enters FAULT from a position of the hardware (R122, R142). -/
theorem sequencerTurn_phase_ne_fault (hp : s.phase ≠ .fault) (hblk : s.phase = .bAdd → s.blk.toNat < s.nblk.toNat)
    (h : sequencerTurn s = .next t) : t.phase ≠ .fault := by
  rw [← State.position_phase, sequencerTurn_position h]
  refine Position.next_phase_ne_fault hp fun hadd => ?_
  rw [sequencerTurn_nblk_of_bAdd hadd h]
  exact hblk hadd

/-- Of the host's actions only START can enter FAULT. -/
theorem start_of_hostAct_enters_fault (hp : s.phase ≠ .fault) (ht : t.phase = .fault) (h : hostAct a s = .next t) :
    a = .writeCtrl 1 ∧ execStart s = .next t := by
  obtain rfl | ⟨_, -, rfl⟩ | ⟨_, _, -, -, rfl⟩ | ⟨_, rfl⟩ | hstart := hostAct_cases h
  · exact absurd ht hp
  · exact absurd ht hp
  · exact absurd ht hp
  · exact absurd ht hp
  · exact hstart

/-- START enters FAULT by `raise LengthFault(c)`, in IDLE or DONE with a length out of the domain (R140, R141). -/
theorem execStart_enters_fault (hp : s.phase ≠ .fault) (ht : t.phase = .fault) (h : execStart s = .next t) :
    (s.phase = .idle ∨ s.phase = .done) ∧ s.msgSize < s.len.toNat ∧
      ∃ c, t = s.raiseLengthFault c ∧ (2 ^ 61 ≤ s.len.toNat → c = .lenOverflow) ∧
        (s.len.toNat < 2 ^ 61 → c = .lenCapacity) := by
  obtain ⟨hrest, hlen, e⟩ | ⟨hrest, hlen, hcap, e⟩ | ⟨-, -, e⟩ | ⟨-, e⟩ := execStart_cases s
  all_goals obtain rfl := Host.Outcome.next.inj (e.symm.trans h)
  · exact ⟨hrest, s.msgSize_lt.trans_le hlen, _, rfl, fun _ => rfl, fun hlt => absurd hlen hlt.not_ge⟩
  · exact ⟨hrest, hcap, _, rfl, fun hge => absurd hlen hge.not_gt, fun _ => rfl⟩
  · cases ht
  · exact absurd ht hp

end

/-- Settles O30, by what a step can be: RESET ends in IDLE, and neither the sequencer nor an operation out of order enters
FAULT, so the step is a START. -/
theorem onlyStartRaisesLengthFault : Obligations.OnlyStartRaisesLengthFault := by
  intro s t hp ht hstep hblk
  obtain ⟨-, rfl⟩ | ⟨-, hseq⟩ | ⟨a, hturn, hact⟩ | ⟨w, i, u, -, -, -, hi, he, rfl⟩ := step_cases hstep
  · cases ht
  · exact absurd ht (sequencerTurn_phase_ne_fault (s := s.dropTurn) hp hblk hseq)
  · obtain ⟨rfl, hstart⟩ := start_of_hostAct_enters_fault (s := s.dropTurn) hp ht hact
    obtain ⟨hrest, hcap, hentry⟩ := execStart_enters_fault (s := s.dropTurn) hp ht hstart
    exact ⟨s.turns.tail, State.turns_of_nextTurn hturn (by decide), hrest, hcap, hentry⟩
  · obtain ⟨hpos, -⟩ := exec_frame hi he
    exact absurd ((congrArg Position.phase hpos).symm.trans ht) hp

/-! ## FAULT is left by RESET only (R145, R149) -/

section
variable {s t : State} {a : HostAction}

theorem State.nextTurn_reset_eq_false (h : ∀ u ∈ s.turns.head?, u.reset = false) : s.nextTurn.reset = false := by
  cases hturns : s.turns with
  | nil => rw [nextTurn_of_nil hturns]; rfl
  | cons u rest => rw [nextTurn_of_cons hturns]; exact h u (by rw [hturns]; rfl)

/-- In FAULT the host's actions, START among them, write neither PHASE nor CAUSE. -/
theorem hostAct_of_fault (hp : s.phase = .fault) (h : hostAct a s = .next t) : t.phase = s.phase ∧ t.cause = s.cause := by
  obtain rfl | ⟨_, -, rfl⟩ | ⟨_, _, -, -, rfl⟩ | ⟨_, rfl⟩ | ⟨-, hstart⟩ := hostAct_cases h
  · exact ⟨rfl, rfl⟩
  · exact ⟨rfl, rfl⟩
  · exact ⟨rfl, rfl⟩
  · exact ⟨rfl, rfl⟩
  · rw [execStart_of_dropped (.inr hp)] at hstart
    cases hstart
    exact ⟨rfl, rfl⟩

/-- A step from FAULT without RESET writes neither PHASE nor CAUSE. -/
theorem step_of_fault (hp : s.phase = .fault) (hreset : s.nextTurn.reset = false) (h : step s = .next t) :
    t.phase = s.phase ∧ t.cause = s.cause := by
  obtain ⟨hr, -⟩ | ⟨-, hseq⟩ | ⟨a, -, hact⟩ | ⟨w, i, u, -, -, -, hi, he, rfl⟩ := step_cases h
  · rw [hreset] at hr; cases hr
  · rw [sequencerTurn_of_resting (State.named_of_resting (s := s.dropTurn) (.inr (.inr hp)))] at hseq
    cases hseq
    exact ⟨rfl, rfl⟩
  · exact hostAct_of_fault (s := s.dropTurn) hp hact
  · obtain ⟨hpos, -, -, hcause, -⟩ := exec_frame hi he
    exact ⟨congrArg Position.phase hpos, hcause⟩

end

/-- Settles O31: STATUS is a view of PHASE and CAUSE, and neither is written. -/
theorem faultLeftOnlyByReset : Obligations.FaultLeftOnlyByReset := by
  intro s t hp hstep hreset
  obtain ⟨hphase, hcause⟩ := step_of_fault hp (State.nextTurn_reset_eq_false hreset) hstep
  exact ⟨hphase.trans hp, hcause, by rw [State.status_eq, State.status_eq, hphase, hcause]⟩

end Sys2Proof.Machine
end

section
/-! Proofs of 70_reset_and_hazards.md's statements: what a turn with RESET leaves (R146, R158), and that the operation due reads
nothing unwritten (R163, R165). -/

namespace Sys2Proof.Machine

/-! ## RESET (R146, R158) -/

@[simp] theorem State.resetInput_status (s : State) : s.resetInput.status = statusWord .idle .none := rfl

/-- Settles O32: the turn is RESET alone, and each clause is a field of the state it leaves. -/
theorem resetInputWins : Obligations.ResetInputWins := by
  intro s ev
  have hstatus : s.resetInput.status = 0x00000000 := by
    rw [State.resetInput_status]
    decide
  exact ⟨s.resetInput, takeTurn_reset ev s, rfl, rfl, hstatus, fun _ => ⟨rfl, rfl, rfl⟩, rfl, rfl⟩

/-! ## The operation due reads nothing unwritten (R165) -/

section
variable {s : State} {i : Instr}

/-- The buffer is written up to `PLEN`, block `BLK` of it included. -/
theorem State.InBlock.block_written (h : s.InBlock) {k : Nat} (hk : k < 64) :
    (s.pad.read? (64 * s.blk.toNat + k)).isSome = true := by
  have hplen := h.plen_eq
  have hblk := h.blkInRange
  exact h.padWritten _ (by omega)

/-- The schedule words that SCH.EXP reads lie before word `J`. -/
theorem State.Expanding.source_written (h : s.Expanding) {d : BitVec 6} (hpos : 0 < d.toNat) (hd : d.toNat ≤ 16) :
    s.written.w[(s.j - d).toNat]'(s.j - d).isLt = true := by
  have hj := h.indexLegal
  have hsub : (s.j - d).toNat = s.j.toNat - d.toNat := BitVec.toNat_sub_of_le (BitVec.le_def.2 (hd.trans hj))
  exact h.scheduled _ (s.j - d).isLt (by omega)

/-- PAD.COPY and PAD.LEN aside, which read what is the host's to write (R163), the operation due reads nothing unwritten. -/
theorem State.Inv.not_readsUnwritten (h : s.Inv) (hnamed : s.position.named = some i) (hcopy : i ≠ .padCopy)
    (hlen : i ≠ .padLen) : ¬ s.ReadsUnwritten i := by
  have hphased := h.inPhase
  cases hp : s.phase <;> rw [hp] at hphased <;> rw [named_of_phase hp] at hnamed <;> cases hnamed
  case pCopy => exact absurd rfl hcopy
  case pMark | pZero => simp [State.ReadsUnwritten, hphased.plenWritten]
  case pLen => exact absurd rfl hlen
  case hInit => exact id
  case bLoad =>
    rintro (hblk | ⟨k, hk, hnone⟩)
    · simp [hphased.blkWritten] at hblk
    · have hsome := hphased.block_written hk
      simp [hnone] at hsome
  case sExp =>
    rintro ⟨d, hd, hunwritten⟩
    have hrange : 0 < d.toNat ∧ d.toNat ≤ 16 := by obtain rfl | rfl | rfl | rfl := hd <;> decide
    have hwritten := hphased.source_written hrange.1 hrange.2
    exact Bool.eq_false_iff.1 hunwritten hwritten
  case rCopy => obtain ⟨hblock, -⟩ := hphased; simp [State.ReadsUnwritten, hblock.hWritten]
  case rStep => simp [State.ReadsUnwritten, hphased.vWritten, hphased.scheduled _ s.j.isLt s.j.isLt]
  case bAdd => obtain ⟨hblock, hv⟩ := hphased; simp [State.ReadsUnwritten, hblock.hWritten, hv]
  case serial => obtain ⟨-, -, hh⟩ := hphased; simp [State.ReadsUnwritten, hh]

end

/-- Settles O53: each clause is what the invariant says of its phase. -/
theorem sequencerReadsOnlyWritten : Obligations.SequencerReadsOnlyWritten := by
  intro s h
  have at_phase {p : Phase} (hp : s.phase = p) : s.InPhase p := hp ▸ h.inPhase
  refine ⟨?pads, fun hp => ?load, fun hp => ?expand, fun hp => ?copy, fun hp => ?round, fun hp => ?add, fun hp => ?serial,
    fun i => h.not_readsUnwritten⟩
  case pads =>
    rintro (hp | hp | hp)
    all_goals exact (at_phase hp).plenWritten
  case load => exact ⟨(at_phase hp).blkWritten, fun _ => (at_phase hp).block_written⟩
  case expand => exact ⟨(at_phase hp).jWritten, (at_phase hp).scheduled⟩
  case copy => obtain ⟨hblock, -⟩ := at_phase hp; exact hblock.hWritten
  case round =>
    have hround : s.Rounding := at_phase hp
    exact ⟨hround.jWritten, hround.vWritten, hround.scheduled _ s.j.isLt s.j.isLt⟩
  case add => obtain ⟨hblock, hv⟩ := at_phase hp; exact ⟨hblock.hWritten, hv, hblock.blkWritten, hblock.nblkWritten⟩
  case serial => obtain ⟨-, -, hh⟩ := at_phase hp; exact hh

end Sys2Proof.Machine
end

section
/-! Proof of the statement about PAD.LEN run by hand on a length of `2^61` or more (log 15). -/

namespace Sys2Proof.Machine

/-- Settles O52: the append of the length field as in the domain, its bytes those of the 64 bits that are kept. -/
theorem padLenBeyondDomain : Obligations.PadLenBeyondDomain := by
  intro s _ hroom
  obtain ⟨t, hexec, happ⟩ := execPadLen_completes hroom
  have hnblk : t.nblk = BitVec.ofNat 56 ((s.plen.toNat + 8) / 64) := by rw [happ.frame]
  have hbits : (bitLength s.len).toNat = 8 * s.len.toNat % 2 ^ 64 := BitVec.toNat_mul ..
  refine ⟨t, hexec, fun k hk => ?_, happ.read_outside, happ.plen_eq, ?_, ?_⟩
  · rw [happ.read_inside k hk, lengthBytes_getElem? _ hk, Option.map_some, lenByte_toNat, hbits]
  · rw [hnblk, State.nblk_of_plen hroom]
  · rw [hnblk]; exact happ.frame

end Sys2Proof.Machine
end

section
/-! Proofs of the statements about the record of writes (log 9; R73, R122, R130): it misses no write of a register, and holds
nothing else. -/

namespace Sys2Proof.Machine

/-! ## What is written is recorded -/

/-- A location that held `x` and now holds `y` is recorded as `b'` if it changed or, as `b`, was recorded before. -/
def Noted {α : Type} (x y : α) (b b' : Bool) : Prop := y ≠ x ∨ b = true → b' = true

/-- From state `s` to `t` no register changes unrecorded, and nothing recorded is forgotten. -/
structure State.Notes (s t : State) : Prop where
  blk  : Noted s.blk t.blk s.written.blk t.written.blk
  j    : Noted s.j t.j s.written.j t.written.j
  plen : Noted s.plen t.plen s.written.plen t.written.plen
  nblk : Noted s.nblk t.nblk s.written.nblk t.written.nblk
  len  : Noted s.len t.len s.written.len t.written.len
  h    : Noted s.h t.h s.written.h t.written.h
  v    : Noted s.v t.v s.written.v t.written.v
  w    : ∀ k (hk : k < 64), Noted s.w[k] t.w[k] s.written.w[k] t.written.w[k]

section
variable {α : Type} {x y z : α} {b b' b'' : Bool}

theorem Noted.refl (x : α) (b : Bool) : Noted x x b b := fun h => h.resolve_left fun hne => hne rfl

theorem Noted.trans (h : Noted x y b b') (h' : Noted y z b' b'') : Noted x z b b'' := by
  rintro (hne | hb)
  · by_cases hy : y = x
    · exact h' (.inl (hy ▸ hne))
    · exact h' (.inr (h (.inl hy)))
  · exact h' (.inr (h (.inr hb)))

end

section
variable {s t u : State} {i : Instr} {a : HostAction}

theorem State.Notes.refl (s : State) : s.Notes s :=
  ⟨.refl _ _, .refl _ _, .refl _ _, .refl _ _, .refl _ _, .refl _ _, .refl _ _, fun _ _ => .refl _ _⟩

theorem State.Notes.trans (h : s.Notes t) (h' : t.Notes u) : s.Notes u :=
  ⟨h.blk.trans h'.blk, h.j.trans h'.j, h.plen.trans h'.plen, h.nblk.trans h'.nblk, h.len.trans h'.len, h.h.trans h'.h,
    h.v.trans h'.v, fun k hk => (h.w k hk).trans (h'.w k hk)⟩

/-- An operation, its writes recorded. -/
theorem exec_notes (hi : i ≠ .start) (he : exec i s = .next t) : s.Notes (t.recordOperation i) := by
  obtain ⟨hpos, hlen, -, -, -, -, -, -, hwritten⟩ := exec_frame hi he
  obtain ⟨hplen, hnblk, hh, hv, hw, hblkKept, hjKept, hlenKept⟩ := exec_recorded hi he
  have hblk : t.blk = s.blk := congrArg Position.blk hpos
  have hj : t.j = s.j := congrArg Position.j hpos
  rw [State.recordOperation, hwritten]
  exact ⟨fun h => hblkKept (h.resolve_left fun hne => hne hblk), fun h => hjKept (h.resolve_left fun hne => hne hj),
    hplen, hnblk, fun h => hlenKept (h.resolve_left fun hne => hne hlen), hh, hv, hw⟩

/-- The position write of R122: `BLK` and `J` are all it writes. -/
theorem State.advance_notes (s : State) : s.Notes s.advance := by
  refine { State.Notes.refl s with blk := fun h => ?_, j := fun h => ?_ }
  · rw [State.advance_written, Written.byPositionWrite_blk, Bool.or_eq_true, decide_eq_true_iff]
    exact h.elim (fun hne => .inr (.inr hne)) .inl
  · rw [State.advance_written, Written.byPositionWrite_j, Bool.or_eq_true, decide_eq_true_iff]
    exact h.elim (fun hne => .inr (.inr (.inr hne))) .inl

theorem sequencerTurn_notes (h : sequencerTurn s = .next t) : s.Notes t := by
  obtain ⟨-, rfl⟩ | ⟨i, u, hnamed, -, he, rfl⟩ := sequencerTurn_cases h
  · exact .refl _
  · exact (exec_notes (Position.named_ne_start hnamed) he).trans (State.advance_notes _)

/-- START writes no register that the record speaks of (R120). -/
theorem execStart_notes (h : execStart s = .next t) : s.Notes t := by
  obtain ⟨-, -, e⟩ | ⟨-, -, -, e⟩ | ⟨-, -, e⟩ | ⟨-, e⟩ := execStart_cases s
  all_goals
    obtain rfl := Host.Outcome.next.inj (e.symm.trans h)
    exact { State.Notes.refl s with }

theorem hostAct_notes (h : hostAct a s = .next t) : s.Notes t := by
  obtain rfl | ⟨n, -, rfl⟩ | ⟨k, b, -, -, rfl⟩ | ⟨r, rfl⟩ | ⟨-, hstart⟩ := hostAct_cases h
  · exact .refl _
  · exact { State.Notes.refl s with len := fun _ => rfl }
  · exact { State.Notes.refl s with }
  · exact { State.Notes.refl s with }
  · exact execStart_notes hstart

theorem State.dropTurn_notes (s : State) : s.Notes s.dropTurn := { State.Notes.refl s with }

theorem step_notes (hreset : s.nextTurn.reset = false) (h : step s = .next t) : s.Notes t := by
  refine s.dropTurn_notes.trans ?_
  obtain ⟨hr, -⟩ | ⟨-, hseq⟩ | ⟨a, -, hact⟩ | ⟨w, i, u, -, -, -, hi, he, rfl⟩ := step_cases h
  · rw [hreset] at hr; cases hr
  · exact sequencerTurn_notes hseq
  · exact hostAct_notes hact
  · exact exec_notes hi he

end

/-! ## The lists of writes, in order and by hand -/

section
variable {s t : State} {i : Instr}

theorem step_of_sequencerActs (h : s.SequencerActs) : step s = sequencerTurn s.dropTurn := by
  obtain hturn | ⟨w, hturn, hdue⟩ := h
  · rw [step, hturn, takeTurn_sequencer]
  · rw [step, hturn, takeTurn_feed, feedWord_of_due (s := s.dropTurn) hdue]

/-- The operation that a step performs, in order or by hand, has its writes recorded. -/
theorem State.Performs.holdsWritesOf (hi : s.Performs i) (h : step s = .next t) : t.written.HoldsWritesOf i := by
  obtain ⟨hacts, hnamed⟩ | ⟨w, hturn, hdue, hd⟩ := hi
  · rw [step_of_sequencerActs hacts] at h
    obtain ⟨hrest, -⟩ | ⟨i', u, hnamed', -, -, rfl⟩ := sequencerTurn_cases h
    · exact absurd (hnamed.symm.trans hrest) (by simp)
    · obtain rfl : i = i' := Option.some.inj (hnamed.symm.trans hnamed')
      exact Written.byPositionWrite_holdsWritesOf.2 (Written.byOperation_holdsWritesOf _ _)
  · rw [step, hturn, takeTurn_feed, feedWord_of_not_due (s := s.dropTurn) hdue] at h
    obtain ⟨i', u, hd', -, -, rfl⟩ := performOutOfOrder_cases h
    obtain rfl : i = i' := Except.ok.inj (hd.symm.trans hd')
    exact Written.byOperation_holdsWritesOf _ _

/-! ## The rows of R122 -/

/-- A turn of the sequencer while BUSY ends in the position write. -/
theorem sequencerTurn_eq_advance (hbusy : s.phase.busy = true) (h : sequencerTurn s = .next t) :
    ∃ u : State, u.position = s.position ∧ t = u.advance := by
  obtain ⟨hrest, -⟩ | ⟨i, u, hnamed, -, he, rfl⟩ := sequencerTurn_cases h
  · obtain ⟨i, hnamed⟩ := Position.named_of_busy (p := s.position) hbusy
    exact absurd (hnamed.symm.trans hrest) (by simp)
  · obtain ⟨hpos, -⟩ := exec_frame (Position.named_ne_start hnamed) he
    exact ⟨u.recordOperation i, hpos, rfl⟩

/-- The rows that write `BLK`: that of H.INIT records it as such, that of BLK.ADD because it changes. -/
theorem sequencerTurn_records_blk (h : sequencerTurn s = .next t)
    (hrow : s.phase = .hInit ∨ s.phase = .bAdd ∧ s.blk.toNat + 1 < s.nblk.toNat) : t.written.blk = true := by
  obtain hp | ⟨hp, hmore⟩ := hrow
  · obtain ⟨u, hpos, rfl⟩ := sequencerTurn_eq_advance (by rw [hp]; rfl) h
    have hphase : u.phase = .hInit := (congrArg Position.phase hpos).trans hp
    simp [hphase]
  · have hnext := sequencerTurn_position h
    rw [sequencerTurn_nblk_of_bAdd hp h, State.position, State.position, hp, Position.next_of_more hmore] at hnext
    have hblk : t.blk = s.blk + 1 := congrArg Position.blk hnext
    exact (sequencerTurn_notes h).blk (.inl (by simp [hblk]))

/-- The rows that write `J`: those of BLK.LOAD and RND.COPY record it as such, those of the two loops because it changes. -/
theorem sequencerTurn_records_j (h : sequencerTurn s = .next t)
    (hrow : s.phase = .bLoad ∨ s.phase = .rCopy ∨ (s.phase = .sExp ∨ s.phase = .rStep) ∧ s.j.toNat < 63) :
    t.written.j = true := by
  have hbusy : s.phase.busy = true := by obtain hp | hp | ⟨hp | hp, -⟩ := hrow <;> rw [hp] <;> rfl
  obtain ⟨u, hpos, rfl⟩ := sequencerTurn_eq_advance hbusy h
  have hphase : u.phase = s.phase := congrArg Position.phase hpos
  have hj : u.j = s.j := congrArg Position.j hpos
  obtain hp | hp | ⟨hp, hlt⟩ := hrow
  · simp [hphase, hp]
  · simp [hphase, hp]
  · rw [State.advance_of_index (hphase ▸ hp) (hj ▸ hlt)]

end

/-- Settles O54: nothing changes unrecorded by what a step can be; the lists and the rows by the operation performed. -/
theorem writesAreRecorded : Obligations.WritesAreRecorded := by
  intro s t h hreset
  have hnotes := step_notes hreset h
  refine ⟨hnotes.blk, hnotes.j, hnotes.plen, hnotes.nblk, hnotes.len, hnotes.h, hnotes.v, hnotes.w,
    fun i hi => hi.holdsWritesOf h, fun hacts => ?rows, fun n hturn hrest => ?len⟩
  case rows =>
    rw [step_of_sequencerActs hacts] at h
    exact ⟨sequencerTurn_records_blk (s := s.dropTurn) h, sequencerTurn_records_j (s := s.dropTurn) h⟩
  case len =>
    rw [step, hturn, takeTurn_host, hostAct, hostWriteLen_of_resting (s := s.dropTurn) hrest] at h
    cases h
    rfl

/-! ## What is recorded was written -/

section
variable {s t : State} {i : Instr} {p : Position} {nblk : BitVec 56}

/-- The record after a step: emptied by RESET, or as it was, or with `LEN` added by a host write, or with the writes of the
operation performed, and in the sequencer's step with the position write, added. -/
theorem step_written_cases (h : step s = .next t) :
    t.written = Written.nothing ∨ t.written = s.written ∨
    (∃ n, s.nextTurn = Turn.host (.writeLen n) ∧ t.written = { s.written with len := true }) ∨
    (∃ i, s.Performs i ∧ t.written = s.written.byOperation i) ∨
    (∃ i nblk, s.SequencerActs ∧ s.Performs i ∧
      t.written = (s.written.byOperation i).byPositionWrite s.position (s.position.next nblk)) := by
  obtain ⟨-, rfl⟩ | ⟨hacts, hseq⟩ | ⟨a, hturn, hact⟩ | ⟨w, i, u, hturn, hdue, hd, hi, he, rfl⟩ := step_cases h
  · exact .inl rfl
  · obtain ⟨-, rfl⟩ | ⟨i, u, hnamed, -, he, rfl⟩ := sequencerTurn_cases hseq
    · exact .inr (.inl rfl)
    · obtain ⟨hpos, -, -, -, -, -, -, -, hwritten⟩ := exec_frame (Position.named_ne_start hnamed) he
      refine .inr (.inr (.inr (.inr ⟨i, u.nblk, hacts, .inl ⟨hacts, hnamed⟩, ?_⟩)))
      rw [State.advance_written, State.recordOperation_written, State.recordOperation_position, hwritten, hpos]
      rfl
  · obtain hsame | ⟨n, rfl, hlen⟩ := hostAct_written hact
    · exact .inr (.inl hsame)
    · exact .inr (.inr (.inl ⟨n, hturn, hlen⟩))
  · obtain ⟨-, -, -, -, -, -, -, -, hwritten⟩ := exec_frame hi he
    refine .inr (.inr (.inr (.inl ⟨i, .inr ⟨w, hturn, hdue, hd⟩, ?_⟩)))
    rw [State.recordOperation_written, hwritten]
    rfl

/-- What the operation that a step performs records: nothing but the registers of its rule. -/
theorem State.Performs.byOperation_only (hi : s.Performs i) :
    (s.written.byOperation i).blk = s.written.blk ∧ (s.written.byOperation i).j = s.written.j ∧
    (s.written.byOperation i).len = s.written.len ∧
    ((s.written.byOperation i).plen = true → s.written.plen = true ∨
      ∃ i, s.Performs i ∧ (i = .padCopy ∨ i = .padMark ∨ i = .padZero ∨ i = .padLen)) ∧
    ((s.written.byOperation i).nblk = true → s.written.nblk = true ∨ s.Performs .padLen) ∧
    ((s.written.byOperation i).h = true → s.written.h = true ∨ s.Performs .hInit ∨ s.Performs .blkAdd) ∧
    ((s.written.byOperation i).v = true → s.written.v = true ∨ s.Performs .rndCopy ∨ ∃ j, s.Performs (.rndStep j)) ∧
    (∀ k (hk : k < 64), (s.written.byOperation i).w[k] = true → s.written.w[k] = true ∨ (k < 16 ∧ s.Performs .blkLoad) ∨
      s.Performs (.schExp (BitVec.ofNat 6 k))) := by
  have performed {i' : Instr} (he : i = i') : s.Performs i' := he ▸ hi
  obtain ⟨hblk, hj, hlen, hplen, hnblk, hh, hv, hw⟩ := Written.byOperation_only (m := s.written) (i := i)
  refine ⟨hblk, hj, hlen, fun hb => (hplen hb).imp_right fun he => ⟨i, hi, he⟩, fun hb => (hnblk hb).imp_right performed,
    fun hb => (hh hb).imp_right (Or.imp performed performed), fun hb => (hv hb).imp_right (Or.imp performed ?_),
    fun k hk hb => (hw k hk hb).imp_right (Or.imp (And.imp_right performed) performed)⟩
  exact fun ⟨j, he⟩ => ⟨j, performed he⟩

/-- The rows of R122 that can change `BLK`. -/
theorem Position.next_blk_ne (h : (p.next nblk).blk ≠ p.blk) : p.phase = .hInit ∨ p.phase = .bAdd := by
  obtain ⟨ph, blk, j⟩ := p
  cases ph with
  | hInit => exact .inl rfl
  | bAdd => exact .inr rfl
  | sExp | rStep => simp only [Position.next] at h; split at h <;> exact absurd rfl h
  | _ => exact absurd rfl h

/-- The rows of R122 that can change `J`; that of BLK.ADD only past the last block (log 7). -/
theorem Position.next_j_ne (h : (p.next nblk).j ≠ p.j) :
    p.phase = .bLoad ∨ p.phase = .sExp ∨ p.phase = .rCopy ∨ p.phase = .rStep ∨ p.phase = .bAdd := by
  obtain ⟨ph, blk, j⟩ := p
  cases ph with
  | bLoad => exact .inl rfl
  | sExp => exact .inr (.inl rfl)
  | rCopy => exact .inr (.inr (.inl rfl))
  | rStep => exact .inr (.inr (.inr (.inl rfl)))
  | bAdd => exact .inr (.inr (.inr (.inr rfl)))
  | _ => exact absurd rfl h

/-- The position write records `BLK` at the rows that write it only. -/
theorem Written.byPositionWrite_blk_only {m : Written} (h : (m.byPositionWrite p (p.next nblk)).blk = true) :
    m.blk = true ∨ p.phase = .hInit ∨ p.phase = .bAdd := by
  rw [Written.byPositionWrite_blk, Bool.or_eq_true, decide_eq_true_iff] at h
  exact h.imp_right fun hrow => hrow.elim .inl Position.next_blk_ne

/-- The position write records `J` at the rows that write it only. -/
theorem Written.byPositionWrite_j_only {m : Written} (h : (m.byPositionWrite p (p.next nblk)).j = true) :
    m.j = true ∨ p.phase = .bLoad ∨ p.phase = .sExp ∨ p.phase = .rCopy ∨ p.phase = .rStep ∨ p.phase = .bAdd := by
  rw [Written.byPositionWrite_j, Bool.or_eq_true, decide_eq_true_iff] at h
  exact h.imp_right fun hrow => hrow.elim .inl fun hrow => hrow.elim (fun hp => .inr (.inr (.inl hp))) Position.next_j_ne

end

/-- Settles O55, by what a step does to the record. -/
theorem onlyWritesAreRecorded : Obligations.OnlyWritesAreRecorded := by
  intro s t h
  obtain hm | hm | ⟨n, hturn, hm⟩ | ⟨i, hi, hm⟩ | ⟨i, nblk, hacts, hi, hm⟩ := step_written_cases h
  all_goals rw [hm]
  · simp [Written.nothing]
  · exact ⟨.inl, .inl, .inl, .inl, .inl, .inl, .inl, fun _ _ => .inl⟩
  · exact ⟨.inl, .inl, .inl, .inl, fun _ => .inr ⟨n, hturn⟩, .inl, .inl, fun _ _ => .inl⟩
  · obtain ⟨hblk, hj, hlen, hplen, hnblk, hh, hv, hw⟩ := hi.byOperation_only
    exact ⟨fun hb => .inl (hblk ▸ hb), fun hb => .inl (hj ▸ hb), hplen, hnblk, fun hb => .inl (hlen ▸ hb), hh, hv, hw⟩
  · obtain ⟨hblk, hj, hlen, hplen, hnblk, hh, hv, hw⟩ := hi.byOperation_only
    refine ⟨fun hb => ?blk, fun hb => ?j, hplen, hnblk, fun hb => .inl (hlen ▸ hb), hh, hv, hw⟩
    case blk => exact (Written.byPositionWrite_blk_only hb).imp (fun hb => hblk ▸ hb) fun hrow => ⟨hacts, hrow⟩
    case j => exact (Written.byPositionWrite_j_only hb).imp (fun hb => hj ▸ hb) fun hrow => ⟨hacts, hrow⟩

end Sys2Proof.Machine
end
